-- ==== Sys2Proof/Word.lean ====
section
/-! DEFINITION. The word types of `ntt_core`: what the spec numbers bit by bit (00_scope R11). -/

namespace Sys2Proof

/-- A 32-bit register, bus or command word (10_state R22, 30_encoding R70). -/
abbrev Word := BitVec 32

/-- An element address register: SRCA, SRCB, DST (10_state R34). -/
abbrev ElemAddr := BitVec 16

end Sys2Proof
end

