-- ==== Sys2Proof/Config.lean ====
section
/-! DEFINITION. The implementation parameters (00_scope R6 to R8) and the free values of the machine
(10_state R42, 70_reset_and_hazards R231). -/

namespace Sys2Proof

/-- The OPEN parameters of the block, fixed for one machine (00_scope R6 to R8; notes/assumptions/1). -/
structure Params where
  /-- `ELEM_W`: the width in bits of a field element (R6). -/
  elemW : Nat
  /-- `MEM_LOG2`: log2 of the number of words of the data memory (R7). -/
  memLog2 : Nat
  /-- `LOGN_MAX`: the largest transform-length exponent accepted (R8). -/
  logNMax : Nat
  deriving DecidableEq, Repr

namespace Params

/-- The defaults of 00_scope R6, R7 and R8. -/
def default : Params := { elemW := 32, memLog2 := 12, logNMax := 10 }

/-- The ranges of 00_scope R6, R7 and R8. -/
abbrev Valid (p : Params) : Prop :=
  (2 ≤ p.elemW ∧ p.elemW ≤ 32) ∧ (1 ≤ p.memLog2 ∧ p.memLog2 ≤ 14) ∧ p.logNMax ≤ 15

/-- `MEM_WORDS = 2^MEM_LOG2` (00_scope R7). -/
def memWords (p : Params) : Nat := 2 ^ p.memLog2

end Params

namespace Config

/-- FREE VALUE (70_reset_and_hazards R231; notes/assumptions/2): what draw number `draw` of a data-memory
word not written since reset gives at an element address. No body: nothing constrains it. -/
opaque freeUnwritten (draw address : Nat) : Word

/-- FREE VALUE (10_state R42; notes/assumptions/3): what draw number `draw` of a host read of a
destination word of the command in flight gives at an element address. No body: nothing constrains it. -/
opaque freeInFlight (draw address : Nat) : Word

end Config

end Sys2Proof
end

