-- ==== Sys2Proof/Syntax.lean ====
section
/-! DEFINITION. The commands of `ntt_core`: one constructor per row of the opcode map (30_encoding R74). -/

namespace Sys2Proof

/-- A legal command. Every constructor carries the LOGN field `k` of its word (30_encoding R72); NOP and
the scalar commands ignore it (R76), and it is kept so that a decoded word can be encoded back (R79). -/
inductive Instr where
  /-- no operation (45_system R190) -/
  | nop (k : Nat)
  /-- modular add (40_modular_arithmetic R101) -/
  | madd (k : Nat)
  /-- modular subtract (R102) -/
  | msub (k : Nat)
  /-- modular multiply (R103) -/
  | mmul (k : Nat)
  /-- modular exponentiation (R104) -/
  | mpow (k : Nat)
  /-- modular inverse by Fermat exponentiation (R105) -/
  | minv (k : Nat)
  /-- forward 1D transform of length `2^k` (41_ntt_1d R123) -/
  | ntt1 (k : Nat)
  /-- inverse 1D transform of length `2^k` (R124) -/
  | intt1 (k : Nat)
  /-- forward 2D transform, `2^k` by `2^k` (42_ntt_2d R141) -/
  | ntt2 (k : Nat)
  /-- inverse 2D transform (R142) -/
  | intt2 (k : Nat)
  /-- pointwise product of two sequences of length `2^k` (44_pointwise_and_frequency R171) -/
  | pmul1 (k : Nat)
  /-- pointwise product of two `2^k` by `2^k` matrices (R172) -/
  | pmul2 (k : Nat)
  /-- spatial convolution oracle (43_convolution_oracle R161) -/
  | convs (k : Nat)
  /-- frequency-domain convolution (44_pointwise_and_frequency R174) -/
  | convf (k : Nat)
  deriving DecidableEq, Repr

/-- The LOGN field of a command (30_encoding R72). -/
def Instr.logN : Instr → Nat
  | .nop k => k
  | .madd k => k
  | .msub k => k
  | .mmul k => k
  | .mpow k => k
  | .minv k => k
  | .ntt1 k => k
  | .intt1 k => k
  | .ntt2 k => k
  | .intt2 k => k
  | .pmul1 k => k
  | .pmul2 k => k
  | .convs k => k
  | .convf k => k

end Sys2Proof
end

