-- ==== Sys2Proof/WellFormed.lean ====
section
/-! DEFINITION. Which terms of `Instr` a command word can spell. -/

namespace Sys2Proof

/-- LOGN is the 4-bit unsigned field `cmd[11:8]` (30_encoding R72): the one operand of the encoding. -/
abbrev Instr.WellFormed (i : Instr) : Prop := i.logN < 16

end Sys2Proof
end

