-- ==== Sys2Proof/Decode.lean ====
section
/-! DEFINITION. The command word (30_encoding R70 to R79): its fields, the total decoder, which rejects by
name, and the encoder. -/

namespace Sys2Proof

/-- Why a command word is ILLEGAL (30_encoding R78). -/
inductive DecodeError where
  /-- `cmd[7:5] != 0` or `cmd[31:12] != 0` (R73), whatever the OPC is. -/
  | reservedBits
  /-- OPC 0x06, 0x07 or 0x10 to 0x1F with the reserved bits 0 (R75). -/
  | unassignedOpcode
  deriving DecidableEq, Repr

/-- `OPC = cmd[4:0]` (30_encoding R71). -/
def fieldOpc (cmd : Word) : Nat := (cmd.extractLsb' 0 5).toNat

/-- `RSV0 = cmd[7:5]` (30_encoding R70). -/
def fieldRsv0 (cmd : Word) : Nat := (cmd.extractLsb' 5 3).toNat

/-- `LOGN = cmd[11:8]` (30_encoding R72). -/
def fieldLogN (cmd : Word) : Nat := (cmd.extractLsb' 8 4).toNat

/-- `RSV1 = cmd[31:12]` (30_encoding R70). -/
def fieldRsv1 (cmd : Word) : Nat := (cmd.extractLsb' 12 20).toNat

/-- The mnemonic an OPC names, with the LOGN `k` (30_encoding R74); `none` for the unassigned OPC
values of R75. -/
def decodeOpc (opc k : Nat) : Option Instr :=
  match opc with
  | 0x00 => some (.nop k)
  | 0x01 => some (.madd k)
  | 0x02 => some (.msub k)
  | 0x03 => some (.mmul k)
  | 0x04 => some (.mpow k)
  | 0x05 => some (.minv k)
  | 0x08 => some (.ntt1 k)
  | 0x09 => some (.intt1 k)
  | 0x0A => some (.ntt2 k)
  | 0x0B => some (.intt2 k)
  | 0x0C => some (.pmul1 k)
  | 0x0D => some (.pmul2 k)
  | 0x0E => some (.convs k)
  | 0x0F => some (.convf k)
  | _ => none

/-- The decoder of 30_encoding R78, total on all 2^32 words. -/
def decode (cmd : Word) : Except DecodeError Instr :=
  if fieldRsv0 cmd ≠ 0 ∨ fieldRsv1 cmd ≠ 0 then .error .reservedBits
  else
    match decodeOpc (fieldOpc cmd) (fieldLogN cmd) with
    | none => .error .unassignedOpcode
    | some i => .ok i

/-- The OPC of a command (30_encoding R74). -/
def Instr.opcode : Instr → Nat
  | .nop _ => 0x00
  | .madd _ => 0x01
  | .msub _ => 0x02
  | .mmul _ => 0x03
  | .mpow _ => 0x04
  | .minv _ => 0x05
  | .ntt1 _ => 0x08
  | .intt1 _ => 0x09
  | .ntt2 _ => 0x0A
  | .intt2 _ => 0x0B
  | .pmul1 _ => 0x0C
  | .pmul2 _ => 0x0D
  | .convs _ => 0x0E
  | .convf _ => 0x0F

/-- `Encode(mnemonic, k) = zext_32 of (k[3:0], 0b000, OPC[4:0])` (30_encoding R79). -/
def encode (i : Instr) : Word :=
  0#20 ++ BitVec.ofNat 4 i.logN ++ 0#3 ++ BitVec.ofNat 5 i.opcode

/-- The instruction the decoder reads from an instruction of `nbits` bits with the bits of `w`, numbered
as the opcode table numbers them: bit i of the number is bit i of the command word (30_encoding R70,
20_memory R52; notes/assumptions/18). -/
def decodeTableWord (nbits w : Nat) : Option Instr :=
  match decode (BitVec.ofNat 32 (w % 2 ^ nbits)) with
  | .ok i => some i
  | .error _ => none

end Sys2Proof
end

