-- ==== Sys2Proof/Machine/State.lean ====
section
/-! DEFINITION. The state of `ntt_core` as plain data (10_state), the inputs it receives, its reset value,
and the reasons a step could stop. -/

namespace Sys2Proof.Machine

/-- The register STATUS (10_state R26): its named fields. Bits [7:4] and [31:12] are RAZ/WI and hold
nothing. -/
structure Status where
  /-- bit [0]: a command is in flight -/
  busy : Bool
  /-- bit [1]: a command has completed, successful or not -/
  done : Bool
  /-- bit [2]: the completed command ended in an error -/
  err : Bool
  /-- bit [3]: sticky, a host write was dropped while BUSY -/
  haz : Bool
  /-- bits [11:8]: the error code of the last completed command (60_exceptions R200) -/
  ecode : BitVec 4
  deriving DecidableEq, Repr

/-- STATUS after reset: 0 (10_state R26). -/
def Status.reset : Status := { busy := false, done := false, err := false, haz := false, ecode := 0#4 }

/-- The data memory (10_state R39): the element words written since reset, as (element address, word)
pairs, the addresses strictly rising. An address not listed has not been written since reset
(70_reset_and_hazards R231; notes/assumptions/2 and 9). -/
abbrev Memory := List (Nat × Word)

/-- One host bus access (10_state R21). -/
structure HostAccess where
  /-- `bus_addr`: the byte offset inside the block -/
  offset : BitVec 17
  /-- `bus_wr`: true for a write -/
  write : Bool
  /-- `bus_size`: log2 of the access size in bytes -/
  size : BitVec 2
  /-- `bus_wdata` -/
  wdata : Word
  deriving DecidableEq, Repr

/-- What the outside world and the scheduler can do next (10_state R20, R21; 20_memory R62;
notes/assumptions/5). -/
inductive Input where
  /-- the host performs one bus access -/
  | host (a : HostAccess)
  /-- the unit takes its completion step, if a command is in flight (10_state R40) -/
  | unitTurn
  /-- the pin `rst_n` is sampled at a clock edge with this level (70_reset_and_hazards R230) -/
  | resetPin (level : Bool)
  deriving DecidableEq, Repr

/-- How a host access completed (10_state R21, 20_memory R51). -/
inductive BusResponse where
  /-- a write completed with `bus_err` = 0 -/
  | written
  /-- a read completed with `bus_err` = 0 and this `bus_rdata` -/
  | data (v : Word)
  /-- a write completed with `bus_err` = 1 -/
  | writeError
  /-- a read completed with `bus_err` = 1 and this `bus_rdata` -/
  | readError (v : Word)
  deriving DecidableEq, Repr

/-- The whole state of the block, and of the model's own bookkeeping (the last three fields). -/
structure State where
  /-- ELEM_W, MEM_LOG2 and LOGN_MAX: constants, written by no step (notes/assumptions/1) -/
  params : Params
  /-- CTRL.IE (10_state R25) -/
  ie : Bool
  /-- STATUS (R26) -/
  status : Status
  /-- CMD (R27) -/
  cmd : Word
  /-- MOD (R28) -/
  mod : Word
  /-- ROOT (R29) -/
  root : Word
  /-- ROOT_INV (R30) -/
  rootInv : Word
  /-- OPA (R31) -/
  opa : Word
  /-- OPB (R32) -/
  opb : Word
  /-- RESULT (R33) -/
  result : Word
  /-- SRCA (R34) -/
  srca : ElemAddr
  /-- SRCB (R34) -/
  srcb : ElemAddr
  /-- DST (R34) -/
  dst : ElemAddr
  /-- DMEM (R39) -/
  dmem : Memory
  /-- the level of `rst_n` when it was last sampled (R21; notes/assumptions/7) -/
  rstN : Bool
  /-- the response of the latest host access, `none` before the first (R21; notes/assumptions/6) -/
  response : Option BusResponse
  /-- MODEL'S OWN: the number of the next free draw (notes/assumptions/4) -/
  draws : Nat
  /-- MODEL'S OWN: what happens next, the first entry first (notes/assumptions/5) -/
  inputs : List Input
  deriving DecidableEq, Repr

/-- The machine right after reset, for given parameters (10_state R22, 70_reset_and_hazards R230 to R232).
The values of `rstN`, `response`, `draws` and `inputs` are the model's (notes/assumptions/4 to 7). -/
def State.resetWith (p : Params) : State :=
  { params := p, ie := false, status := Status.reset, cmd := 0#32, mod := 0#32, root := 0#32,
    rootInv := 0#32, opa := 0#32, opb := 0#32, result := 0#32, srca := 0#16, srcb := 0#16, dst := 0#16,
    dmem := [], rstN := true, response := none, draws := 0, inputs := [] }

/-- The machine right after reset, with the default parameters of 00_scope R6 to R8. -/
def State.reset : State := State.resetWith Params.default

/-- Why a step would stop with a fault: there is no such reason. A command error completes the command
(60_exceptions R209) and a bus error completes the access (20_memory R51); the machine goes on after
both, so neither is a fault of a step (notes/assumptions/12). Nothing raises a value of this type: safe. -/
inductive Fault where
  deriving DecidableEq, Repr

/-- Why a step refuses to give a meaning. -/
inductive Refusal where
  /-- raised only by an arm of `exec` whose instruction has no meaning yet, and no arm raises it: safe -/
  | notModelled (mnemonic : String)
  deriving DecidableEq, Repr

end Sys2Proof.Machine
end

