-- ==== Sys2Proof/Machine/Flags.lean ====
section
/-! DEFINITION. The STATUS register (10_state R26): its word, and every update the spec makes of it. The
block has no arithmetic flags (R38). -/

namespace Sys2Proof.Machine

/-- The errors a command can end in (60_exceptions R200). -/
inductive CmdError where
  /-- reserved command bits set, or unassigned OPC (R201) -/
  | illegalOp
  /-- MOD = 0 (R202) -/
  | invalidModulus
  /-- vector command with LOGN > LOGN_MAX (R203) -/
  | invalidLength
  /-- a region of the command extends past DMEM (R204) -/
  | addrRange
  /-- the destination region overlaps a source region (R205) -/
  | overlap
  /-- an inverse of a value congruent to 0 is required (R206) -/
  | noInverse
  deriving DecidableEq, Repr

/-- The ECODE of an error (60_exceptions R200). -/
def CmdError.code : CmdError → BitVec 4
  | .illegalOp => 1#4
  | .invalidModulus => 2#4
  | .invalidLength => 3#4
  | .addrRange => 4#4
  | .overlap => 5#4
  | .noInverse => 6#4

/-- STATUS as the host reads it (10_state R26): BUSY [0], DONE [1], ERR [2], HAZ [3], ECODE [11:8]. -/
def Status.toWord (st : Status) : Word :=
  0#20 ++ st.ecode ++ 0#4 ++ BitVec.ofBool st.haz ++ BitVec.ofBool st.err ++ BitVec.ofBool st.done
    ++ BitVec.ofBool st.busy

/-- The issue step's update (10_state R40): BUSY <- 1, DONE, ERR, ECODE <- 0; HAZ stays. -/
def Status.issued (st : Status) : Status :=
  { st with busy := true, done := false, err := false, ecode := 0#4 }

/-- The completion update after success (60_exceptions R209); HAZ stays. -/
def Status.completedOk (st : Status) : Status :=
  { st with err := false, ecode := 0#4, busy := false, done := true }

/-- The completion update after an error (60_exceptions R209); HAZ stays. -/
def Status.completedError (st : Status) (c : CmdError) : Status :=
  { st with err := true, ecode := c.code, busy := false, done := true }

/-- A dropped host write sets HAZ and nothing else (10_state R41, 60_exceptions R211). -/
def Status.withHazard (st : Status) : Status := { st with haz := true }

/-- A host write of `v` to STATUS (10_state R26, 45_system R191): bit 1 clears DONE, bit 2 clears ERR
and ECODE, bit 3 clears HAZ; a bit written 0 changes nothing; BUSY is read-only. -/
def Status.writeOneToClear (st : Status) (v : Word) : Status :=
  { busy := st.busy
    done := if v.getLsbD 1 then false else st.done
    err := if v.getLsbD 2 then false else st.err
    haz := if v.getLsbD 3 then false else st.haz
    ecode := if v.getLsbD 2 then 0#4 else st.ecode }

/-- The `irq` output at every step: `DONE AND IE` (10_state R44, 60_exceptions R212;
notes/assumptions/16). -/
def State.irq (s : State) : Bool := s.status.done && s.ie

end Sys2Proof.Machine
end

