-- ==== Sys2Proof/Machine/Ops.lean ====
section
/-! DEFINITION. The shared operations over registers and the data memory, the issue step, the completion of
a command with success or with an error, and the reset action. -/

namespace Sys2Proof.Machine

/-! ## Field updates -/

/-- RESULT <- the residue `v` (10_state R33); `v` fits, so nothing is lost (20_memory R56). -/
def State.setResult (s : State) (v : Nat) : State := { s with result := BitVec.ofNat 32 v }

/-- STATUS <- `st`. -/
def State.setStatus (s : State) (st : Status) : State := { s with status := st }

/-- DMEM <- `m`. -/
def State.setDmem (s : State) (m : Memory) : State := { s with dmem := m }

/-- The model's count of free draws moves on by `n` (notes/assumptions/4). -/
def State.takeDraws (s : State) (n : Nat) : State := { s with draws := s.draws + n }

/-- What is still to come after the present step (notes/assumptions/5). -/
def State.setInputs (s : State) (l : List Input) : State := { s with inputs := l }

/-- A host access completes with the response `r` (10_state R21). -/
def State.respond (s : State) (r : BusResponse) : State := { s with response := some r }

/-! ## Registers -/

/-- The registers of the block (10_state R22). -/
inductive Reg where
  | id | param | ctrl | status | cmd | mod | root | rootInv | opa | opb | result | srca | srcb | dst
  deriving DecidableEq, Repr

/-- Every register, in the order of 10_state R22. -/
def Reg.all : List Reg :=
  [.id, .param, .ctrl, .status, .cmd, .mod, .root, .rootInv, .opa, .opb, .result, .srca, .srcb, .dst]

/-- The byte offset of a register in the register page (10_state R22). -/
def Reg.offset : Reg → Nat
  | .id => 0x000
  | .param => 0x004
  | .ctrl => 0x008
  | .status => 0x00C
  | .cmd => 0x010
  | .mod => 0x014
  | .root => 0x018
  | .rootInv => 0x01C
  | .opa => 0x020
  | .opb => 0x024
  | .result => 0x028
  | .srca => 0x02C
  | .srcb => 0x030
  | .dst => 0x034

/-- The constant ID (10_state R23). -/
def idWord : Word := 0x4E540001#32

/-- The constant PARAM (10_state R24): ELEMW [5:0], LOGNMAX [11:8], MEMLOG2 [19:16]. -/
def paramWord (p : Params) : Word :=
  0#12 ++ BitVec.ofNat 4 p.memLog2 ++ 0#4 ++ BitVec.ofNat 4 p.logNMax ++ 0#2 ++ BitVec.ofNat 6 p.elemW

/-- `v[ELEM_W-1:0]`, zero-extended (10_state R35, 20_memory R53). -/
def elemBits (p : Params) (v : Word) : Word := BitVec.ofNat 32 (v.toNat % 2 ^ p.elemW)

/-- CTRL as the host reads it: IE in bit 0, the rest RAZ (10_state R25). -/
def ctrlWord (ie : Bool) : Word := 0#31 ++ BitVec.ofBool ie

/-- `zext_32(x[r])`: what a host read of a register returns (45_system R192, 10_state R42). -/
def State.readReg (s : State) : Reg → Word
  | .id => idWord
  | .param => paramWord s.params
  | .ctrl => ctrlWord s.ie
  | .status => s.status.toWord
  | .cmd => s.cmd
  | .mod => s.mod
  | .root => s.root
  | .rootInv => s.rootInv
  | .opa => s.opa
  | .opb => s.opb
  | .result => s.result
  | .srca => s.srca.setWidth 32
  | .srcb => s.srcb.setWidth 32
  | .dst => s.dst.setWidth 32

/-! ## Data memory -/

/-- The word at element address `e`, if it has been written since reset. -/
def Memory.lookup : Memory → Nat → Option Word
  | [], _ => none
  | (a, w) :: rest, e => if a = e then some w else Memory.lookup rest e

/-- `DMEM[e] <- v`; keeps the addresses strictly rising. -/
def Memory.write : Memory → Nat → Word → Memory
  | [], e, v => [(e, v)]
  | (a, w) :: rest, e, v =>
    if e < a then (e, v) :: (a, w) :: rest
    else if e = a then (e, v) :: rest
    else (a, w) :: Memory.write rest e v

/-- `MemWrite(e, m, L)` (20_memory R56), m the length of L: word i of L to element address `e + i`. -/
def Memory.writeList : Memory → Nat → List Nat → Memory
  | mem, _, [] => mem
  | mem, e, v :: rest => Memory.writeList (mem.write e (BitVec.ofNat 32 v)) (e + 1) rest

/-- The canonical form: the addresses strictly rise. So two memories with the same words written since
reset are equal data, and no entry stands for an address that has not been written (an address not
listed has no value of its own: `State.unwrittenWord`). -/
def Memory.wf : Memory → Bool
  | [] => true
  | [_] => true
  | (a, _) :: (b, w) :: rest => decide (a < b) && Memory.wf ((b, w) :: rest)

/-- What an address not written since reset reads as in draw `draw`: a free ELEM_W-bit value
(70_reset_and_hazards R231; notes/assumptions/2). -/
def State.unwrittenWord (s : State) (draw e : Nat) : Word :=
  elemBits s.params (Config.freeUnwritten draw e)

/-- DMEM[e] as it is read in draw `draw` (10_state R39, 70_reset_and_hazards R231). -/
def State.readWord (s : State) (draw e : Nat) : Word :=
  match s.dmem.lookup e with
  | some w => w
  | none => s.unwrittenWord draw e

/-- `MemRead(e, m) = [ DMEM[e + i] for i in 0..m-1 ]`, each an integer (20_memory R56). The words not
written since reset are taken in draw `draw`. -/
def State.memRead (s : State) (draw e m : Nat) : List Nat :=
  (List.range m).map fun i => (s.readWord draw (e + i)).toNat

/-- `INRANGE(b, m) = (b + m <= MEM_WORDS)` (20_memory R57). -/
abbrev inRange (p : Params) (b m : Nat) : Prop := b + m ≤ p.memWords

/-- `OVERLAPS(b1, m1, b2, m2)` (20_memory R57). -/
abbrev overlaps (b₁ m₁ b₂ m₂ : Nat) : Prop := b₁ < b₂ + m₂ ∧ b₂ < b₁ + m₁

/-! ## Issue, completion, reset -/

/-- The issue step (10_state R40): a host write of `v` to CMD while BUSY = 0. -/
def State.issue (s : State) (v : Word) : State := { s with cmd := v, status := s.status.issued }

/-- The end of a command that succeeded (60_exceptions R209). -/
def State.completeOk (s : State) : State := s.setStatus s.status.completedOk

/-- TAKING AN ERROR: the end of a command that failed (60_exceptions R208, R209, R214). ERR, ECODE, BUSY
and DONE are written and nothing else: nothing is saved, no mode changes. The host's acknowledgement,
which returns from it (R216), is `Status.writeOneToClear` or the next `State.issue`. -/
def State.completeError (s : State) (c : CmdError) : State := s.setStatus (s.status.completedError c)

/-- The reset action (70_reset_and_hazards R230, R231): every register takes its reset value, a command in
flight is abandoned and every DMEM word becomes unspecified. The parameters are constants; the level of
the pin, the latest response and the model's own bookkeeping are no registers of the block. -/
def State.resetAction (s : State) : State :=
  { State.resetWith s.params with
    rstN := s.rstN, response := s.response, draws := s.draws, inputs := s.inputs }

/-- `rst_n` is sampled at a clock edge: at level 0 the reset action is performed (70_reset_and_hazards
R230); the level stands until it is sampled again (R233). -/
def State.sampleReset (s : State) (level : Bool) : State :=
  if level then { s with rstN := true } else { s.resetAction with rstN := false }

end Sys2Proof.Machine
end

