-- ==== Sys2Proof/Machine/Operands.lean ====
section
/-! DEFINITION. The operand forms of the commands (30_encoding R77), the checks made before any work
(60_exceptions R207), and the matrices of 00_scope R13. -/

namespace Sys2Proof.Machine

/-! ## Operand forms -/

/-- One row of the table of 30_encoding R77 for a vector command. -/
structure VectorForm where
  /-- the regions have n*n words (a matrix, 20_memory R59) instead of n (a sequence, R58) -/
  square : Bool
  /-- the command reads SRCB (60_exceptions R207) -/
  readsB : Bool
  /-- the command scales by the inverse of n (60_exceptions R206) -/
  scales : Bool
  deriving DecidableEq, Repr

/-- NTT1 reads a sequence at SRCA (30_encoding R77). -/
def ntt1Form : VectorForm := { square := false, readsB := false, scales := false }

/-- INTT1 reads a sequence at SRCA and scales (30_encoding R77). -/
def intt1Form : VectorForm := { square := false, readsB := false, scales := true }

/-- NTT2 reads a matrix at SRCA (30_encoding R77). -/
def ntt2Form : VectorForm := { square := true, readsB := false, scales := false }

/-- INTT2 reads a matrix at SRCA and scales (30_encoding R77). -/
def intt2Form : VectorForm := { square := true, readsB := false, scales := true }

/-- PMUL1 reads sequences at SRCA and SRCB (30_encoding R77). -/
def pmul1Form : VectorForm := { square := false, readsB := true, scales := false }

/-- PMUL2 reads matrices at SRCA and SRCB (30_encoding R77). -/
def pmul2Form : VectorForm := { square := true, readsB := true, scales := false }

/-- CONVS reads matrices at SRCA and SRCB (30_encoding R77). -/
def convsForm : VectorForm := { square := true, readsB := true, scales := false }

/-- CONVF reads matrices at SRCA and SRCB and scales (30_encoding R77). -/
def convfForm : VectorForm := { square := true, readsB := true, scales := true }

/-- The form of a command, `none` for NOP and the scalar commands (30_encoding R74, R77). -/
def vectorForm : Instr → Option VectorForm
  | .nop _ => none
  | .madd _ => none
  | .msub _ => none
  | .mmul _ => none
  | .mpow _ => none
  | .minv _ => none
  | .ntt1 _ => some ntt1Form
  | .intt1 _ => some intt1Form
  | .ntt2 _ => some ntt2Form
  | .intt2 _ => some intt2Form
  | .pmul1 _ => some pmul1Form
  | .pmul2 _ => some pmul2Form
  | .convs _ => some convsForm
  | .convf _ => some convfForm

/-- The number m of words of each region: n or n*n with n = 2^k (60_exceptions R207). -/
def VectorForm.words (f : VectorForm) (k : Nat) : Nat := if f.square then 2 ^ k * 2 ^ k else 2 ^ k

/-- `dcount` of the command word in CMD (10_state R42): the words of the destination region of a legal
vector command, 0 for every other command word. -/
def destWords (cmd : Word) : Nat :=
  match decode cmd with
  | .error _ => 0
  | .ok i =>
    match vectorForm i with
    | none => 0
    | some f => f.words i.logN

/-- The element address lies in the destination region of the command in CMD (10_state R42). -/
abbrev State.inDestination (s : State) (e : Nat) : Prop :=
  s.dst.toNat ≤ e ∧ e < s.dst.toNat + destWords s.cmd

/-! ## Checks -/

/-- The checks of a scalar command other than MINV's NO_INVERSE (60_exceptions R207). -/
def State.scalarCheck (s : State) : Option CmdError :=
  if s.mod.toNat = 0 then some .invalidModulus else none

/-- The checks of MINV (60_exceptions R206, R207). -/
def State.inverseCheck (s : State) : Option CmdError :=
  match s.scalarCheck with
  | some c => some c
  | none => if s.opa.toNat % s.mod.toNat = 0 then some .noInverse else none

/-- The checks of a vector command of form `f` with LOGN `k`, in the fixed order of 60_exceptions R207:
the first that fails is reported. -/
def State.vectorCheck (s : State) (f : VectorForm) (k : Nat) : Option CmdError :=
  if s.mod.toNat = 0 then some .invalidModulus
  else if s.params.logNMax < k then some .invalidLength
  else if ¬ inRange s.params s.srca.toNat (f.words k) then some .addrRange
  else if f.readsB ∧ ¬ inRange s.params s.srcb.toNat (f.words k) then some .addrRange
  else if ¬ inRange s.params s.dst.toNat (f.words k) then some .addrRange
  else if overlaps s.dst.toNat (f.words k) s.srca.toNat (f.words k) then some .overlap
  else if f.readsB ∧ overlaps s.dst.toNat (f.words k) s.srcb.toNat (f.words k) then some .overlap
  else if f.scales ∧ 2 ^ k % s.mod.toNat = 0 then some .noInverse
  else none

/-! ## What the completion step of a command does -/

/-- The completion step of a scalar command whose checks answered `check` and whose value is `value`
(60_exceptions R207 to R209): RESULT and STATUS, or STATUS alone. -/
def State.runScalar (s : State) (check : Option CmdError) (value : Nat) : State :=
  match check with
  | some c => s.completeError c
  | none => (s.setResult value).completeOk

/-- The completion step of a vector command of form `f` with LOGN `k` (60_exceptions R207 to R209): when
every check passes, the source regions are read, `value` of them is written to the destination region
and STATUS is updated; otherwise STATUS alone. The words of the two sources that were not written since
reset are two draws (notes/assumptions/2). -/
def State.runVector (s : State) (f : VectorForm) (k : Nat) (value : List Nat → List Nat → List Nat) : State :=
  match s.vectorCheck f k with
  | some c => s.completeError c
  | none =>
    let srcA := s.memRead s.draws s.srca.toNat (f.words k)
    let srcB := if f.readsB then s.memRead (s.draws + 1) s.srcb.toNat (f.words k) else []
    ((s.setDmem (s.dmem.writeList s.dst.toNat (value srcA srcB))).takeDraws 2).completeOk

/-! ## Matrices (00_scope R13) -/

/-- An n by n matrix: a list of n rows of n elements. -/
abbrev Mat := List (List Nat)

/-- `M[r][c]` -/
def Mat.entry (M : Mat) (r c : Nat) : Nat := (M.getD r []).getD c 0

/-- The n by n matrix with the elements `f r c`. -/
def Mat.build (n : Nat) (f : Nat → Nat → Nat) : Mat :=
  (List.range n).map fun r => (List.range n).map fun c => f r c

/-- `T(M)[r][c] = M[c][r]` -/
def Mat.transpose (n : Nat) (M : Mat) : Mat := Mat.build n fun r c => M.entry c r

/-- `FLIP(M)[k][l] = M[n-1-k][n-1-l]` -/
def Mat.flip (n : Nat) (M : Mat) : Mat := Mat.build n fun k l => M.entry (n - 1 - k) (n - 1 - l)

/-- `ROWMAJOR(M)`: the element r*n + c is M[r][c] (00_scope R13, 20_memory R59). -/
def Mat.rowMajor (M : Mat) : List Nat := M.flatten

/-- `UNROWMAJOR_n(L)`, the inverse of ROWMAJOR. -/
def Mat.ofRowMajor (n : Nat) (L : List Nat) : Mat := Mat.build n fun r c => L.getD (r * n + c) 0

end Sys2Proof.Machine
end

