-- ==== Sys2Proof/Machine/Scalar.lean ====
section
/-! DEFINITION. The modular arithmetic unit (40_modular_arithmetic): the shared functions of R100 and the
commands MADD, MSUB, MMUL, MPOW and MINV. -/

namespace Sys2Proof.Machine

/-! ## Shared functions (R100), on exact integers -/

/-- `MODADD(a, b, p) = (a + b) mod p` -/
def modAdd (a b p : Nat) : Nat := (a + b) % p

/-- `MODSUB(a, b, p) = (a - b) mod p`, the floor modulo of the exact difference (00_scope R10). -/
def modSub (a b p : Nat) : Nat := (((a : Int) - (b : Int)) % (p : Int)).toNat

/-- `MODMUL(a, b, p) = (a * b) mod p` -/
def modMul (a b p : Nat) : Nat := (a * b) % p

/-- Binary exponentiation over the lowest `bits` bits of the exponent, reducing after every multiply. -/
def modPowBits (p : Nat) : (bits : Nat) → (b e : Nat) → Nat
  | 0, _, _ => 1 % p
  | bits + 1, b, e =>
    let rest := modPowBits p bits (b * b % p) (e / 2)
    if e % 2 = 1 then b * rest % p else rest

/-- `MODPOW(b, e, p) = (b ^ e) mod p`, by binary exponentiation over all bits of `e`
(notes/assumptions/15; the equation with `b ^ e % p` is `modPow_eq` in Laws/Scalar.lean). -/
def modPow (b e p : Nat) : Nat := modPowBits p (e.log2 + 1) b e

/-- `MODINV(a, p) = MODPOW(a, p - 2, p)`, for `a mod p` not 0: the commands' checks raise NO_INVERSE
before they call it otherwise (R100, 60_exceptions R206). -/
def modInv (a p : Nat) : Nat := modPow a (p - 2) p

/-! ## Commands -/

/-- MADD (R101). LOGN is ignored (30_encoding R76). -/
def execMadd (_k : Nat) (s : State) : Host.Outcome State Fault Refusal :=
  .next (s.runScalar s.scalarCheck (modAdd s.opa.toNat s.opb.toNat s.mod.toNat))

/-- MSUB (R102). LOGN is ignored. -/
def execMsub (_k : Nat) (s : State) : Host.Outcome State Fault Refusal :=
  .next (s.runScalar s.scalarCheck (modSub s.opa.toNat s.opb.toNat s.mod.toNat))

/-- MMUL (R103). LOGN is ignored. -/
def execMmul (_k : Nat) (s : State) : Host.Outcome State Fault Refusal :=
  .next (s.runScalar s.scalarCheck (modMul s.opa.toNat s.opb.toNat s.mod.toNat))

/-- MPOW (R104): base OPA, exponent OPB. LOGN is ignored. -/
def execMpow (_k : Nat) (s : State) : Host.Outcome State Fault Refusal :=
  .next (s.runScalar s.scalarCheck (modPow s.opa.toNat s.opb.toNat s.mod.toNat))

/-- MINV (R105). LOGN is ignored. Primality of MOD is not checked (60_exceptions R210). -/
def execMinv (_k : Nat) (s : State) : Host.Outcome State Fault Refusal :=
  .next (s.runScalar s.inverseCheck (modInv s.opa.toNat s.mod.toNat))

end Sys2Proof.Machine
end

