-- ==== Sys2Proof/Machine/Ntt1d.lean ====
section
/-! DEFINITION. The 1D NTT butterfly engine (41_ntt_1d): NTT_REC, INTT_FN and the commands NTT1 and INTT1. -/

namespace Sys2Proof.Machine

/-- `a[0::2]`: the elements at even indices (00_scope R13). -/
def evens : List Nat → List Nat
  | [] => []
  | [x] => [x]
  | x :: _ :: rest => x :: evens rest

/-- `a[1::2]`: the elements at odd indices. -/
def odds : List Nat → List Nat
  | [] => []
  | [_] => []
  | _ :: y :: rest => y :: odds rest

/-- The twiddle factors of `m` iterations of the combine loop, from the present `t`: each is the one
before it times w, mod p (R120, R121). -/
def twiddles (p w : Nat) : (m t : Nat) → List Nat
  | 0, _ => []
  | m + 1, t => t :: twiddles p w m (t * w % p)

/-- The combine step (R120): `r[i] = (E[i] + t*O[i]) mod p` and `r[i + n/2] = (E[i] - t*O[i]) mod p`, the
twiddles `ts` in order. -/
def butterflies (p : Nat) (ts evenT oddT : List Nat) : List Nat :=
  List.zipWith (fun x y => (x + y) % p) evenT (List.zipWith (· * ·) ts oddT) ++
    List.zipWith (fun x y => modSub x y p) evenT (List.zipWith (· * ·) ts oddT)

/-- `NTT_REC(a, p, w)` of a list of length 2^k (R120): the recursion halves the list, so it recurses on k
(notes/assumptions/14). A list of length 1 is returned unchanged, without reduction (90_conflicts C4). -/
def nttRec : (k : Nat) → (a : List Nat) → (p w : Nat) → List Nat
  | 0, a, _, _ => a
  | k + 1, a, p, w =>
    butterflies p (twiddles p w (2 ^ k) 1) (nttRec k (evens a) p (w * w % p)) (nttRec k (odds a) p (w * w % p))

/-- `INTT_FN(y, p, w_inv)` of a list of length 2^k (R122): the same recursion with the inverse root, then
one scaling by the inverse of n = 2^k. -/
def inttFn (k : Nat) (y : List Nat) (p wInv : Nat) : List Nat :=
  (nttRec k y p wInv).map fun z => z * modInv (2 ^ k) p % p

/-- NTT1 (R123). -/
def execNtt1 (k : Nat) (s : State) : Host.Outcome State Fault Refusal :=
  .next (s.runVector ntt1Form k fun a _ =>
    nttRec k a s.mod.toNat s.root.toNat)

/-- INTT1 (R124). -/
def execIntt1 (k : Nat) (s : State) : Host.Outcome State Fault Refusal :=
  .next (s.runVector intt1Form k fun y _ =>
    inttFn k y s.mod.toNat s.rootInv.toNat)

end Sys2Proof.Machine
end

