-- ==== Sys2Proof/Machine/Ntt2d.lean ====
section
/-! DEFINITION. The 2D separable transform (42_ntt_2d): NTT2_FN, INTT2_FN and the commands NTT2 and INTT2. -/

namespace Sys2Proof.Machine

/-- `ROWS_FWD(M, p, w)`: every row transformed (R140). -/
def rowsFwd (k : Nat) (M : Mat) (p w : Nat) : Mat := M.map fun row => nttRec k row p w

/-- `ROWS_INV(M, p, w_inv)`: every row inverse transformed, each with its own scaling (R140, R143). -/
def rowsInv (k : Nat) (M : Mat) (p wInv : Nat) : Mat := M.map fun row => inttFn k row p wInv

/-- `NTT2_FN(M, p, w)`: rows, transpose, rows, transpose back (R140). -/
def ntt2Fn (k : Nat) (M : Mat) (p w : Nat) : Mat :=
  Mat.transpose (2 ^ k) (rowsFwd k (Mat.transpose (2 ^ k) (rowsFwd k M p w)) p w)

/-- `INTT2_FN(M, p, w_inv)`: transpose, rows, transpose back, rows (R140). -/
def intt2Fn (k : Nat) (M : Mat) (p wInv : Nat) : Mat :=
  rowsInv k (Mat.transpose (2 ^ k) (rowsInv k (Mat.transpose (2 ^ k) M) p wInv)) p wInv

/-- NTT2 (R141). -/
def execNtt2 (k : Nat) (s : State) : Host.Outcome State Fault Refusal :=
  .next (s.runVector ntt2Form k fun a _ =>
    (ntt2Fn k (Mat.ofRowMajor (2 ^ k) a) s.mod.toNat s.root.toNat).rowMajor)

/-- INTT2 (R142). -/
def execIntt2 (k : Nat) (s : State) : Host.Outcome State Fault Refusal :=
  .next (s.runVector intt2Form k fun a _ =>
    (intt2Fn k (Mat.ofRowMajor (2 ^ k) a) s.mod.toNat s.rootInv.toNat).rowMajor)

end Sys2Proof.Machine
end

