-- ==== Sys2Proof/Machine/Convolution.lean ====
section
/-! DEFINITION. The spatial convolution oracle (43_convolution_oracle: CONVS), the pointwise product and the
frequency-domain convolution (44_pointwise_and_frequency: PMUL1, PMUL2, CONVF). -/

namespace Sys2Proof.Machine

/-- One cell (i, j) of the oracle's double sum with the flipped matrix `Bf`, the running sum reduced at
every addition; the indices of A by floor modulo (43 R160). -/
def convsCell (n : Nat) (A Bf : Mat) (p i j : Nat) : Nat :=
  (List.range n).foldl (fun acc k =>
    (List.range n).foldl (fun acc l =>
      (acc + A.entry (modSub i k n) (modSub j l n) * Bf.entry k l) % p) acc) 0

/-- `CONVS_FN(A, B, p)` (43 R160): B is flipped in both axes, then the circular double sum is taken. -/
def convsFn (n : Nat) (A B : Mat) (p : Nat) : Mat :=
  Mat.build n fun i j => convsCell n A (Mat.flip n B) p i j

/-- `PMUL_FN(L1, L2, p)` (44 R170). -/
def pmulFn (l₁ l₂ : List Nat) (p : Nat) : List Nat := List.zipWith (fun x y => x * y % p) l₁ l₂

/-- `CONVF_FN(A, B, p, w, w_inv)` (44 R173): FA, FB and FC are internal. -/
def convfFn (k : Nat) (A B : Mat) (p w wInv : Nat) : Mat :=
  intt2Fn k (List.zipWith (fun rowA rowB => pmulFn rowA rowB p) (ntt2Fn k A p w) (ntt2Fn k B p w)) p wInv

/-- CONVS (43 R161). -/
def execConvs (k : Nat) (s : State) : Host.Outcome State Fault Refusal :=
  .next (s.runVector convsForm k fun a b =>
    (convsFn (2 ^ k) (Mat.ofRowMajor (2 ^ k) a) (Mat.ofRowMajor (2 ^ k) b) s.mod.toNat).rowMajor)

/-- PMUL1 (44 R171). -/
def execPmul1 (k : Nat) (s : State) : Host.Outcome State Fault Refusal :=
  .next (s.runVector pmul1Form k fun a b =>
    pmulFn a b s.mod.toNat)

/-- PMUL2 (44 R172): the row-major lists are multiplied element by element. -/
def execPmul2 (k : Nat) (s : State) : Host.Outcome State Fault Refusal :=
  .next (s.runVector pmul2Form k fun a b =>
    pmulFn a b s.mod.toNat)

/-- CONVF (44 R174). -/
def execConvf (k : Nat) (s : State) : Host.Outcome State Fault Refusal :=
  .next (s.runVector convfForm k fun a b =>
    (convfFn k (Mat.ofRowMajor (2 ^ k) a) (Mat.ofRowMajor (2 ^ k) b)
      s.mod.toNat s.root.toNat s.rootInv.toNat).rowMajor)

end Sys2Proof.Machine
end

