-- ==== Sys2Proof/Machine/System.lean ====
section
/-! DEFINITION. System operations (45_system): the command NOP, and the host's reads and writes. -/

namespace Sys2Proof.Machine

/-- NOP (R190): no check of MOD, no effect but the completion. LOGN is ignored (30_encoding R76). -/
def execNop (_k : Nat) (s : State) : Host.Outcome State Fault Refusal := .next s.completeOk

/-! ## Host accesses -/

/-- What a mapped byte offset reaches. -/
inductive Target where
  /-- a register of the register page (10_state R22) -/
  | reg (r : Reg)
  /-- DMEM[e] through the data window (20_memory R53) -/
  | word (e : Nat)
  deriving DecidableEq, Repr

/-- The target of an aligned byte offset, `none` if it is unmapped (20_memory R50, R53, R54). -/
def targetAt (p : Params) (offset : Nat) : Option Target :=
  if offset < 0x10000 then
    (Reg.all.find? fun r => r.offset == offset).map .reg
  else if (offset - 0x10000) / 4 < p.memWords then some (.word ((offset - 0x10000) / 4))
  else none

/-- The block accepts only aligned 32-bit accesses: `bus_size` = 2 and `bus_addr[1:0]` = 0
(20_memory R51). -/
abbrev accepted (offset : BitVec 17) (size : BitVec 2) : Prop := size.toNat = 2 ∧ offset.toNat % 4 = 0

/-- An accepted write to a register while the unit is idle, after CTRL and STATUS (45_system R191): CMD
issues a command (10_state R40), the element registers keep `v[ELEM_W-1:0]` (R35), SRCA, SRCB and DST
keep `v[15:0]` (R34). ID, PARAM and RESULT ignore it (R22); CTRL and STATUS are written by `hostWrite`. -/
def State.writeIdleReg (s : State) (r : Reg) (v : Word) : State :=
  match r with
  | .id => s
  | .param => s
  | .ctrl => s
  | .status => s
  | .cmd => s.issue v
  | .mod => { s with mod := elemBits s.params v }
  | .root => { s with root := elemBits s.params v }
  | .rootInv => { s with rootInv := elemBits s.params v }
  | .opa => { s with opa := elemBits s.params v }
  | .opb => { s with opb := elemBits s.params v }
  | .result => s
  | .srca => { s with srca := v.setWidth 16 }
  | .srcb => { s with srcb := v.setWidth 16 }
  | .dst => { s with dst := v.setWidth 16 }

/-- A write dropped because BUSY = 1: the target is unchanged and HAZ is set (10_state R41). -/
def State.dropWrite (s : State) : State := s.setStatus s.status.withHazard

/-- The effect of a host write of `v` on a mapped target (45_system R191). -/
def State.writeTarget (s : State) (t : Target) (v : Word) : State :=
  match t with
  | .reg .id => s
  | .reg .param => s
  | .reg .result => s
  | .reg .ctrl => { s with ie := v.getLsbD 0 }
  | .reg .status => s.setStatus (s.status.writeOneToClear v)
  | .reg r => if s.status.busy then s.dropWrite else s.writeIdleReg r v
  | .word e => if s.status.busy then s.dropWrite else s.setDmem (s.dmem.write e (elemBits s.params v))

/-- HostWrite (45_system R191): the new state and the response. -/
def State.hostWrite (s : State) (offset : BitVec 17) (size : BitVec 2) (v : Word) : State :=
  if ¬ accepted offset size then s.respond .writeError
  else
    match targetAt s.params offset.toNat with
    | none => s.respond .writeError
    | some t => (s.writeTarget t v).respond .written

/-- HostRead (45_system R192, 10_state R42). A read of a data-memory word is one draw: of a free value if
the word lies in the destination region of the command in flight, or was not written since reset
(notes/assumptions/2 and 3). -/
def State.hostRead (s : State) (offset : BitVec 17) (size : BitVec 2) : State :=
  if ¬ accepted offset size then s.respond (.readError 0#32)
  else
    match targetAt s.params offset.toNat with
    | none => s.respond (.readError 0#32)
    | some (.reg r) => s.respond (.data (s.readReg r))
    | some (.word e) =>
      if s.status.busy ∧ s.inDestination e then
        (s.takeDraws 1).respond (.data (elemBits s.params (Config.freeInFlight s.draws e)))
      else (s.takeDraws 1).respond (.data (s.readWord s.draws e))

/-- One host access. While `rst_n` = 0 it completes with a bus error and changes no state
(70_reset_and_hazards R233; the data of such a read: notes/assumptions/8). -/
def State.hostAccess (s : State) (a : HostAccess) : State :=
  if s.rstN then
    if a.write then s.hostWrite a.offset a.size a.wdata else s.hostRead a.offset a.size
  else if a.write then s.respond .writeError
  else s.respond (.readError 0#32)

end Sys2Proof.Machine
end

