-- ==== Sys2Proof/Machine/Dispatch.lean ====
section
/-! DEFINITION. The completion step of a legal command: one arm per constructor of Instr. -/

namespace Sys2Proof.Machine

def exec (i : Instr) (s : State) : Host.Outcome State Fault Refusal :=
  match i with
  | .nop k => Sys2Proof.Machine.execNop k s
  | .madd k => Sys2Proof.Machine.execMadd k s
  | .msub k => Sys2Proof.Machine.execMsub k s
  | .mmul k => Sys2Proof.Machine.execMmul k s
  | .mpow k => Sys2Proof.Machine.execMpow k s
  | .minv k => Sys2Proof.Machine.execMinv k s
  | .ntt1 k => Sys2Proof.Machine.execNtt1 k s
  | .intt1 k => Sys2Proof.Machine.execIntt1 k s
  | .ntt2 k => Sys2Proof.Machine.execNtt2 k s
  | .intt2 k => Sys2Proof.Machine.execIntt2 k s
  | .pmul1 k => Sys2Proof.Machine.execPmul1 k s
  | .pmul2 k => Sys2Proof.Machine.execPmul2 k s
  | .convs k => Sys2Proof.Machine.execConvs k s
  | .convf k => Sys2Proof.Machine.execConvf k s

end Sys2Proof.Machine
end

