-- ==== Sys2Proof/Machine/Completion.lean ====
section
/-! DEFINITION. The unit's own step (10_state R40): the completion of the command word in CMD. -/

namespace Sys2Proof.Machine

/-- The completion step: `Execute(x[CMD])` and the status update (10_state R40, 60_exceptions R207, R209).
An illegal word completes with ILLEGAL_OP (R201) and stays readable in CMD. -/
def State.completeCommand (s : State) : Host.Outcome State Fault Refusal :=
  match decode s.cmd with
  | .error _ => .next (s.completeError .illegalOp)
  | .ok i => exec i s

/-- The unit's turn: its step is enabled exactly when BUSY = 1 (10_state R40); while `rst_n` = 0 the reset
wins (60_exceptions R213; notes/assumptions/10). With no command in flight the unit does nothing. -/
def State.unitTurn (s : State) : Host.Outcome State Fault Refusal :=
  if s.status.busy ∧ s.rstN then s.completeCommand else .next s

end Sys2Proof.Machine
end

