-- ==== Sys2Proof/Machine/Step.lean ====
section
/-! DEFINITION. One step of the machine: the next input, or the unit's turn when none is listed. -/

namespace Sys2Proof.Machine

/-- One atomic step of the interleaving (20_memory R62; notes/assumptions/5): a host access, the unit's
turn, or a sample of `rst_n`. When nothing more is listed the unit has every turn, so a command in
flight completes (70_reset_and_hazards R237). -/
def step (s : State) : Host.Outcome State Fault Refusal :=
  match s.inputs with
  | [] => s.unitTurn
  | .unitTurn :: rest => (s.setInputs rest).unitTurn
  | .host a :: rest => .next ((s.setInputs rest).hostAccess a)
  | .resetPin level :: rest => .next ((s.setInputs rest).sampleReset level)

/-- `s` with the command word `w` (its lowest `nbits` bits) issued (10_state R40), out of reset, and the
unit's turn next: the very next step is that command's completion step (notes/assumptions/11). -/
def State.withFetchWord (s : State) (nbits w : Nat) : State :=
  { s.issue (BitVec.ofNat 32 (w % 2 ^ nbits)) with rstN := true, inputs := .unitTurn :: s.inputs }

end Sys2Proof.Machine
end

