-- ==== Sys2Proof/Machine/HostProgram.lean ====
section
/-! DEFINITION. The host-program notation (30_encoding R80, R81): each operation as the inputs it gives the
machine. The host's own control flow is outside the block (10_state R20); what WAIT stands for is
`hostWait` (45_system R193; notes/assumptions/19). -/

namespace Sys2Proof.Machine

/-- `WR <reg>, <v>` (R80): the bus access (1, offset(reg), v). -/
def hostWr (r : Reg) (v : Word) : Input :=
  .host { offset := BitVec.ofNat 17 r.offset, write := true, size := 2#2, wdata := v }

/-- `WR M[<e>], <v>` (R80): the bus access (1, 0x10000 + 4e, v). -/
def hostWrM (e : Nat) (v : Word) : Input :=
  .host { offset := BitVec.ofNat 17 (0x10000 + 4 * e), write := true, size := 2#2, wdata := v }

/-- `RD <reg>` (R80): the bus access (0, offset(reg), -). -/
def hostRd (r : Reg) : Input :=
  .host { offset := BitVec.ofNat 17 r.offset, write := false, size := 2#2, wdata := 0#32 }

/-- `RD M[<e>]` (R80): the bus access (0, 0x10000 + 4e, -). -/
def hostRdM (e : Nat) : Input :=
  .host { offset := BitVec.ofNat 17 (0x10000 + 4 * e), write := false, size := 2#2, wdata := 0#32 }

/-- `CMD <MNEMONIC>, <k>` (R80): a write of the encoded command to CMD. -/
def hostCmd (i : Instr) : Input := hostWr .cmd (encode i)

/-- `WAIT` (R80, R193): reads of STATUS, the last of them after the unit's step has ended the command.
`polls` reads find BUSY = 1 before it; every ending run of WAIT is one of these. -/
def hostWait (polls : Nat) : List Input :=
  List.replicate polls (hostRd .status) ++ [.unitTurn, hostRd .status]

/-- `SETMOD p` (R81). -/
def setMod (p : Word) : List Input := [hostWr .mod p]

/-- `SETROOT w, wi` (R81). -/
def setRoot (w wi : Word) : List Input := [hostWr .root w, hostWr .rootInv wi]

/-- `LOADV e, [v0, ..., vm-1]` (R81). -/
def loadV : (e : Nat) → List Word → List Input
  | _, [] => []
  | e, v :: rest => hostWrM e v :: loadV (e + 1) rest

/-- `READV e, m` (R81). -/
def readV (e m : Nat) : List Input := (List.range m).map fun i => hostRdM (e + i)

/-- `SCALAR op, a, b` for MADD, MSUB, MMUL and MPOW (R81). -/
def scalarOp (i : Instr) (a b : Word) (polls : Nat) : List Input :=
  [hostWr .opa a, hostWr .opb b, hostCmd i] ++ hostWait polls ++ [hostRd .result]

/-- `SCALAR MINV, a` (R81). -/
def scalarInv (a : Word) (polls : Nat) : List Input :=
  [hostWr .opa a, hostCmd (.minv 0)] ++ hostWait polls ++ [hostRd .result]

/-- `VEC op, k, sa, sb, d` (R81); SRCB is written for every vector command. -/
def vecOp (i : Instr) (sa sb d : Word) (polls : Nat) : List Input :=
  [hostWr .srca sa, hostWr .srcb sb, hostWr .dst d, hostCmd i] ++ hostWait polls

/-- `CHECK` (R81). -/
def checkStatus : List Input := [hostRd .status]

/-- `CLRSTAT` (R81): clears DONE, ERR with ECODE, and HAZ. -/
def clearStatus : List Input := [hostWr .status 0x0000000E#32]

end Sys2Proof.Machine
end

