-- ==== Sys2Proof/Safety.lean ====
section
/-! DEFINITION. What claims about the machine are stated in terms of: the invariant of its states, the
premise that source words were written, and the mathematics of the laws (00_scope R15). -/

namespace Sys2Proof.Machine

/-- The invariants of STATUS (10_state R26), and that only the codes 0 to 6 are produced, each of 1 to 6
with ERR = 1 (60_exceptions R200, R209; 93 U11). -/
structure Status.Inv (st : Status) : Prop where
  /-- BUSY = 1 implies DONE = 0 and ERR = 0 -/
  busy_clear : st.busy = true → st.done = false ∧ st.err = false
  /-- ECODE is 0 exactly when ERR = 0 -/
  err_iff : st.err = false ↔ st.ecode = 0#4
  /-- 7 to 15 are never produced -/
  ecode_le : st.ecode.toNat ≤ 6

/-- DMEM is in canonical form, and every word written lies in DMEM and has ELEM_W bits (10_state R39). -/
structure Memory.Inv (p : Params) (m : Memory) : Prop where
  canonical : m.wf = true
  in_range : ∀ e w, m.lookup e = some w → e < p.memWords ∧ w.toNat < 2 ^ p.elemW

/-- While `rst_n` is held 0 every register is at its reset value and no word is written
(70_reset_and_hazards R230, R233). -/
def State.AtReset (s : State) : Prop := s = { State.resetWith s.params with
  rstN := s.rstN, response := s.response, draws := s.draws, inputs := s.inputs }

/-- The invariant of the machine's states: the parameters are in their ranges, the element registers and
RESULT have ELEM_W bits (10_state R28 to R35), STATUS and DMEM keep their invariants, and a block held
in reset stays in the reset state. -/
structure State.Inv (s : State) : Prop where
  params_valid : s.params.Valid
  mod_fits : s.mod.toNat < 2 ^ s.params.elemW
  root_fits : s.root.toNat < 2 ^ s.params.elemW
  rootInv_fits : s.rootInv.toNat < 2 ^ s.params.elemW
  opa_fits : s.opa.toNat < 2 ^ s.params.elemW
  opb_fits : s.opb.toNat < 2 ^ s.params.elemW
  result_fits : s.result.toNat < 2 ^ s.params.elemW
  status_inv : s.status.Inv
  dmem_inv : s.dmem.Inv s.params
  held_in_reset : s.rstN = false → s.AtReset

/-! ## The vocabulary of the statements about commands -/

/-- STATUS after a command that succeeded (60_exceptions R209). -/
def State.statusOk (s : State) : Status :=
  { busy := false, done := true, err := false, haz := s.status.haz, ecode := 0#4 }

/-- STATUS after a command that failed with ECODE `c` (60_exceptions R209). -/
def State.statusFailed (s : State) (c : Nat) : Status :=
  { busy := false, done := true, err := true, haz := s.status.haz, ecode := BitVec.ofNat 4 c }

/-- The command fails with ECODE `c`, precisely: STATUS alone changes (60_exceptions R208). -/
def EndsInError (i : Instr) (s : State) (c : Nat) : Prop :=
  exec i s = .next { s with status := s.statusFailed c }

/-- The regions of `m` words at two bases have an element address in common (20_memory R57). -/
abbrev Meet (b₁ b₂ m : Nat) : Prop := ∃ e < b₁ + m, b₁ ≤ e ∧ b₂ ≤ e ∧ e < b₂ + m

/-- Every region of the command lies in DMEM (60_exceptions R204). -/
abbrev State.RegionsFit (s : State) (readsB : Bool) (m : Nat) : Prop :=
  s.srca.toNat + m ≤ s.params.memWords ∧ (readsB = true → s.srcb.toNat + m ≤ s.params.memWords) ∧
    s.dst.toNat + m ≤ s.params.memWords

/-- The destination region shares no word with a source region (60_exceptions R205). -/
abbrev State.RegionsApart (s : State) (readsB : Bool) (m : Nat) : Prop :=
  ¬ Meet s.dst.toNat s.srca.toNat m ∧ (readsB = true → ¬ Meet s.dst.toNat s.srcb.toNat m)

/-- The conditions, on the registers alone, under which a vector command passes every check
(60_exceptions R207): LOGN `k`, regions of `m` words, SRCB read or not, scaling by the inverse of 2^k or
not. -/
abbrev State.Ready (s : State) (readsB scales : Bool) (k m : Nat) : Prop :=
  s.mod.toNat ≠ 0 ∧ k ≤ s.params.logNMax ∧ s.RegionsFit readsB m ∧ s.RegionsApart readsB m ∧
    (scales = true → 2 ^ k % s.mod.toNat ≠ 0)

/-- The checks of a vector command in the order of 60_exceptions R207: the first that fails is reported,
and nothing but STATUS changes. -/
def ChecksInOrder (i : Instr) (s : State) (readsB scales : Bool) (k m : Nat) : Prop :=
  (s.mod.toNat = 0 → EndsInError i s 2) ∧
  (s.mod.toNat ≠ 0 → s.params.logNMax < k → EndsInError i s 3) ∧
  (s.mod.toNat ≠ 0 → k ≤ s.params.logNMax → ¬ s.RegionsFit readsB m → EndsInError i s 4) ∧
  (s.mod.toNat ≠ 0 → k ≤ s.params.logNMax → s.RegionsFit readsB m → ¬ s.RegionsApart readsB m →
    EndsInError i s 5) ∧
  (s.mod.toNat ≠ 0 → k ≤ s.params.logNMax → s.RegionsFit readsB m → s.RegionsApart readsB m →
    scales = true → 2 ^ k % s.mod.toNat = 0 → EndsInError i s 6)

/-- The command completes with success in `t`: the integers `vals` stand in the region at `base`, word by
word and without truncation (20_memory R56, R58), every other word of DMEM is as before, and nothing
else but STATUS (and the model's count of draws) has changed (20_memory R68). -/
structure WritesSequence (s t : State) (base : Nat) (vals : List Nat) : Prop where
  written : ∀ i < vals.length, (t.dmem.lookup (base + i)).map BitVec.toNat = vals[i]?
  elsewhere : ∀ e, e < base ∨ base + vals.length ≤ e → t.dmem.lookup e = s.dmem.lookup e
  frame : t = { s with status := s.statusOk, dmem := t.dmem, draws := t.draws }

/-- The matrix has n rows of n elements (00_scope R13). -/
abbrev Mat.Square (n : Nat) (M : Mat) : Prop := M.length = n ∧ ∀ row ∈ M, row.length = n

/-- As `WritesSequence` for the n by n matrix `M` in row-major order (20_memory R59): M[r][c] stands at
element address `base + r*n + c`. -/
structure WritesMatrix (s t : State) (base n : Nat) (M : Mat) : Prop where
  square : M.Square n
  written : ∀ r < n, ∀ c < n, (t.dmem.lookup (base + r * n + c)).map BitVec.toNat = some (M.entry r c)
  elsewhere : ∀ e, e < base ∨ base + n * n ≤ e → t.dmem.lookup e = s.dmem.lookup e
  frame : t = { s with status := s.statusOk, dmem := t.dmem, draws := t.draws }

/-- The sequence of length n stored at `base` (20_memory R58), as draw `draw` reads it. -/
def State.sequenceAt (s : State) (draw base n : Nat) : List Nat :=
  (List.range n).map fun i => (s.readWord draw (base + i)).toNat

/-- The n by n matrix stored at `base` in row-major order (20_memory R59), as draw `draw` reads it. -/
def State.matrixAt (s : State) (draw base n : Nat) : Mat :=
  Mat.build n fun r c => (s.readWord draw (base + r * n + c)).toNat

/-- The words with OPC `opc` are the command `mk`: a word with its reserved bits 0 decodes to it, with
LOGN = `cmd[11:8]` (30_encoding R74), and a word with a reserved bit set is illegal (R73). -/
def HasOpcode (opc : Nat) (mk : Nat → Instr) : Prop :=
  ∀ c : Word, (c.extractLsb' 0 5).toNat = opc → decode c =
    if c.extractLsb' 5 3 = 0#3 ∧ c.extractLsb' 12 20 = 0#20 then .ok (mk (c.extractLsb' 8 4).toNat)
    else .error .reservedBits

/-- The accepted host write of `v` at a byte offset (30_encoding R80). -/
def busWrite (offset : Nat) (v : Word) : HostAccess :=
  { offset := BitVec.ofNat 17 offset, write := true, size := 2#2, wdata := v }

/-- The accepted host read at a byte offset (30_encoding R80). -/
def busRead (offset : Nat) : HostAccess :=
  { offset := BitVec.ofNat 17 offset, write := false, size := 2#2, wdata := 0#32 }

/-- The byte offsets of the register map (10_state R22). -/
def registerOffsets : List Nat :=
  [0x000, 0x004, 0x008, 0x00C, 0x010, 0x014, 0x018, 0x01C, 0x020, 0x024, 0x028, 0x02C, 0x030, 0x034]

/-- The words of the region at `b` have all been written since reset (70_reset_and_hazards R231). -/
def State.Written (s : State) (b m : Nat) : Prop := ∀ i < m, (s.dmem.lookup (b + i)).isSome = true

/-- Every word of the source regions of a command was written since reset, the premise of a claim about
its result (70_reset_and_hazards R231). NOP and the scalar commands read no region. -/
def State.SourcesWritten (s : State) (i : Instr) : Prop :=
  match vectorForm i with
  | none => True
  | some f => s.Written s.srca.toNat (f.words i.logN) ∧
      (f.readsB = true → s.Written s.srcb.toNat (f.words i.logN))

/-- The host performs the accesses `l` one after the other, with no completion between them. -/
def State.hostAccesses (s : State) : List HostAccess → State
  | [] => s
  | a :: rest => (s.hostAccess a).hostAccesses rest

/-- `CCONV(A,B)[i][j] = (sum over k, l of A[(i-k) mod n][(j-l) mod n] * B[k][l]) mod p` (00_scope R15). -/
def cconv (n : Nat) (A B : Mat) (p : Nat) : Mat :=
  Mat.build n fun i j =>
    (∑ k ∈ Finset.range n, ∑ l ∈ Finset.range n,
      A.entry (((i : ℤ) - k) % n).toNat (((j : ℤ) - l) % n).toNat * B.entry k l) % p

/-- The source's root precondition (41_ntt_1d R127): p is prime and w has multiplicative order exactly n
mod p. -/
def PrimitiveRoot (p n w : Nat) : Prop := p.Prime ∧ orderOf (w : ZMod p) = n

end Sys2Proof.Machine
end

