-- ==== Sys2Proof/Certificates/Slice0/Obligations.lean ====
section
/-! DEFINITION. The statements for the provers. Each docstring names the rules of spec/ it formalises. -/

open Sys2Proof Sys2Proof.Machine

/-! ## Encoding -/

/-- Words written out from 30_encoding R74, and illegal ones, decode as the spec says (a sanity check). -/
def Obligations.DecodesWrittenOutWords : Prop :=
  decode 0x00000F00#32 = .ok (.nop 15) ∧ decode 0x00000001#32 = .ok (.madd 0) ∧
  decode 0x00000004#32 = .ok (.mpow 0) ∧ decode 0x00000208#32 = .ok (.ntt1 2) ∧
  decode 0x0000010B#32 = .ok (.intt2 1) ∧ decode 0x0000020D#32 = .ok (.pmul2 2) ∧
  decode 0x0000020E#32 = .ok (.convs 2) ∧ decode 0x0000020F#32 = .ok (.convf 2) ∧
  decode 0x00000020#32 = .error .reservedBits ∧ decode 0x0000100E#32 = .error .reservedBits ∧
  decode 0x00000006#32 = .error .unassignedOpcode ∧ decode 0x0000001F#32 = .error .unassignedOpcode

/-- Every legal command is read back from its own word, with every LOGN the field admits
(30_encoding R78, R79). -/
def Obligations.DecodeOfEncodeIsIdentity : Prop :=
  ∀ i : Instr, i.WellFormed → decode (encode i) = .ok i

/-- 30_encoding R79: `Encode(mnemonic, k) = (k << 8) | OPC`, and every word whose reserved bits are 0 and
whose OPC is assigned is the encoding of what it decodes to. -/
def Obligations.EncodeOfDecodeIsIdentity : Prop :=
  (∀ i : Instr, i.WellFormed →
    encode i = (BitVec.ofNat 4 i.logN ++ 0b000#3 ++ BitVec.ofNat 5 i.opcode).setWidth 32 ∧
    encode i = BitVec.ofNat 32 ((i.logN <<< 8) ||| i.opcode)) ∧
  ∀ c : Word, c.extractLsb' 5 3 = 0#3 → c.extractLsb' 12 20 = 0#20 →
    (c.extractLsb' 0 5).toNat ≠ 0x06 → (c.extractLsb' 0 5).toNat ≠ 0x07 →
    (c.extractLsb' 0 5).toNat < 0x10 →
    ∃ i, decode c = .ok i ∧ i.WellFormed ∧ encode i = c

/-- 30_encoding R78, with the map of R74: the decoder is total, refuses exactly the words with a reserved
bit set or an unassigned OPC, and names the others by `cmd[4:0]` with LOGN `cmd[11:8]`. -/
def Obligations.DecoderFollowsOpcodeMap : Prop :=
  ∀ c : Word,
    ((∃ e, decode c = .error e) ↔
      (c.extractLsb' 5 3 ≠ 0#3 ∨ c.extractLsb' 12 20 ≠ 0#20 ∨ (c.extractLsb' 0 5).toNat = 0x06 ∨
        (c.extractLsb' 0 5).toNat = 0x07 ∨ 0x10 ≤ (c.extractLsb' 0 5).toNat)) ∧
    ∀ i, decode c = .ok i →
      i = (match (c.extractLsb' 0 5).toNat with
        | 0x00 => Instr.nop | 0x01 => Instr.madd | 0x02 => Instr.msub | 0x03 => Instr.mmul
        | 0x04 => Instr.mpow | 0x05 => Instr.minv | 0x08 => Instr.ntt1 | 0x09 => Instr.intt1
        | 0x0A => Instr.ntt2 | 0x0B => Instr.intt2 | 0x0C => Instr.pmul1 | 0x0D => Instr.pmul2
        | 0x0E => Instr.convs | _ => Instr.convf) (c.extractLsb' 8 4).toNat

/-! ## The step -/

/-- A step runs what comes next: on the unit's turn, which is also what happens when no input is listed,
the completion step of the word in CMD, whatever it is, and of a legal word its command (10_state R40); a
host access; a sample of `rst_n` (70_reset R230). The list of inputs is the model's (notes/assumptions/5). -/
def Obligations.StepRunsTheNextInput : Prop :=
  ∀ (s : State) (rest : List Input),
    (s.status.busy = true → s.rstN = true →
      (s.inputs = [] → step s = s.completeCommand) ∧
      (s.inputs = .unitTurn :: rest → step s = { s with inputs := rest }.completeCommand)) ∧
    (∀ i, s.status.busy = true → s.rstN = true → decode s.cmd = .ok i →
      (s.inputs = [] → step s = exec i s) ∧
      (s.inputs = .unitTurn :: rest → step s = exec i { s with inputs := rest })) ∧
    (∀ a, s.inputs = .host a :: rest → step s = .next ({ s with inputs := rest }.hostAccess a)) ∧
    (∀ level, s.inputs = .resetPin level :: rest →
      step s = .next ({ s with inputs := rest }.sampleReset level))

/-- The step of `withFetchWord` is the completion of the word it places: the issued word's own command, with
STATUS as the issue step leaves it (10_state R40; the form is the model's, notes/assumptions/11). -/
def Obligations.PlacedWordRunsNext : Prop :=
  ∀ (s : State) (w : Word) (i : Instr), decode w = .ok i →
    step (s.withFetchWord 32 w.toNat) = exec i { s with
      cmd := w, rstN := true
      status := { busy := true, done := false, err := false, haz := s.status.haz, ecode := 0#4 } }

/-- No step stops the machine: an error completes its command (60_exceptions R209, R214) and a bus error
its access, and the machine goes on after both. That is the model's reading (notes/assumptions/12): 20_memory
R51 calls a rejected access a host fault of the bus access in a model, and here it is a response. -/
def Obligations.EveryStepAnswersNext : Prop := ∀ s : State, ∃ t, step s = .next t

/-- 60_exceptions R201 (30_encoding R73, R75): an illegal word completes with ILLEGAL_OP, stays readable in
CMD, and changes nothing but STATUS. -/
def Obligations.IllegalWordsCompleteWithIllegalOp : Prop :=
  ∀ s : State,
    (s.cmd.extractLsb' 5 3 ≠ 0#3 ∨ s.cmd.extractLsb' 12 20 ≠ 0#20 ∨
      (s.cmd.extractLsb' 0 5).toNat ∈ [0x06, 0x07] ∨ 0x10 ≤ (s.cmd.extractLsb' 0 5).toNat) →
    s.completeCommand = .next { s with status := s.statusFailed 1 }

/-- 10_state R40, 70_reset_and_hazards R237: the unit's step is enabled exactly when BUSY = 1 (out of
reset); it ends the command in flight, whatever its word is; with BUSY = 0 the unit does nothing. -/
def Obligations.UnitTurnCompletesTheCommand : Prop :=
  ∀ (s : State) (rest : List Input), s.inputs = .unitTurn :: rest →
    (s.status.busy = true → s.rstN = true →
      ∃ t, step s = .next t ∧ t.status.busy = false ∧ t.status.done = true ∧ t.cmd = s.cmd ∧
        t.inputs = rest) ∧
    (s.status.busy = false → step s = .next { s with inputs := rest })

/-! ## NOP and the modular arithmetic unit -/

/-- 45_system R190: NOP has no effect but its completion, in every state (MOD = 0 included) and with every
LOGN; a word of NOP with a reserved bit set is illegal. -/
def Obligations.NopOnlyCompletes : Prop :=
  HasOpcode 0x00 .nop ∧ ∀ (k : Nat) (s : State), exec (.nop k) s = .next { s with status := s.statusOk }

/-- 40_modular_arithmetic R101: MADD, its encoding, its check and its result, with everything it leaves
unchanged; LOGN is ignored. -/
def Obligations.MaddAddsModulo : Prop :=
  HasOpcode 0x01 .madd ∧ ∀ (k : Nat) (s : State),
    (s.mod.toNat = 0 → EndsInError (.madd k) s 2) ∧
    (s.mod.toNat ≠ 0 → exec (.madd k) s = .next { s with
      result := BitVec.ofNat 32 ((s.opa.toNat + s.opb.toNat) % s.mod.toNat), status := s.statusOk })

/-- 40_modular_arithmetic R102: MSUB, with the floor modulo of the exact difference. -/
def Obligations.MsubSubtractsModulo : Prop :=
  HasOpcode 0x02 .msub ∧ ∀ (k : Nat) (s : State),
    (s.mod.toNat = 0 → EndsInError (.msub k) s 2) ∧
    (s.mod.toNat ≠ 0 → ∃ r : Nat, r < s.mod.toNat ∧
      (s.mod.toNat : ℤ) ∣ ((s.opa.toNat : ℤ) - s.opb.toNat) - r ∧
      exec (.msub k) s = .next { s with result := BitVec.ofNat 32 r, status := s.statusOk })

/-- 40_modular_arithmetic R103: MMUL, the exact product reduced. -/
def Obligations.MmulMultipliesModulo : Prop :=
  HasOpcode 0x03 .mmul ∧ ∀ (k : Nat) (s : State),
    (s.mod.toNat = 0 → EndsInError (.mmul k) s 2) ∧
    (s.mod.toNat ≠ 0 → exec (.mmul k) s = .next { s with
      result := BitVec.ofNat 32 (s.opa.toNat * s.opb.toNat % s.mod.toNat), status := s.statusOk })

/-- 40_modular_arithmetic R104: MPOW, the exact power reduced (0^0 = 1). -/
def Obligations.MpowRaisesModulo : Prop :=
  HasOpcode 0x04 .mpow ∧ ∀ (k : Nat) (s : State),
    (s.mod.toNat = 0 → EndsInError (.mpow k) s 2) ∧
    (s.mod.toNat ≠ 0 → exec (.mpow k) s = .next { s with
      result := BitVec.ofNat 32 (s.opa.toNat ^ s.opb.toNat % s.mod.toNat), status := s.statusOk })

/-- 40_modular_arithmetic R105, 60_exceptions R206: MINV, with NO_INVERSE when OPA mod MOD = 0. -/
def Obligations.MinvInvertsByFermat : Prop :=
  HasOpcode 0x05 .minv ∧ ∀ (k : Nat) (s : State),
    (s.mod.toNat = 0 → EndsInError (.minv k) s 2) ∧
    (s.mod.toNat ≠ 0 → s.opa.toNat % s.mod.toNat = 0 → EndsInError (.minv k) s 6) ∧
    (s.mod.toNat ≠ 0 → s.opa.toNat % s.mod.toNat ≠ 0 → exec (.minv k) s = .next { s with
      result := BitVec.ofNat 32 (s.opa.toNat ^ (s.mod.toNat - 2) % s.mod.toNat), status := s.statusOk })

/-- 40_modular_arithmetic R106: the laws of the shared functions. -/
def Obligations.ModularFunctionLaws : Prop :=
  ∀ a b p : Nat, 1 ≤ p →
    (modAdd a b p < p ∧ modSub a b p < p ∧ modMul a b p < p ∧ modPow a b p < p ∧ modInv a p < p) ∧
    (modAdd a b p = modAdd b a p ∧ modMul a b p = modMul b a p) ∧
    modSub a b p = modAdd a (p - b % p) p ∧
    (p.Prime → a % p ≠ 0 → modMul a (modInv a p) p = 1)

/-! ## The 1D transform -/

/-- 41_ntt_1d R120: NTT_REC as the recursion over the even and the odd elements, combined with the twiddle
w^i mod p; a list of length 1 is returned unchanged. -/
def Obligations.NttFollowsTheRecursion : Prop :=
  (∀ x p w, nttRec 0 [x] p w = [x]) ∧
  ∀ (k : Nat) (a : List Nat) (p w : Nat), 1 ≤ p → a.length = 2 ^ (k + 1) →
    (nttRec (k + 1) a p w).length = 2 ^ (k + 1) ∧
    ∀ i < 2 ^ k,
      let evenT := nttRec k ((List.range (2 ^ k)).map fun j => a.getD (2 * j) 0) p (w * w % p)
      let oddT := nttRec k ((List.range (2 ^ k)).map fun j => a.getD (2 * j + 1) 0) p (w * w % p)
      let t := w ^ i % p
      (nttRec (k + 1) a p w)[i]? = some ((evenT.getD i 0 + t * oddT.getD i 0) % p) ∧
      (nttRec (k + 1) a p w)[i + 2 ^ k]? =
        some (((evenT.getD i 0 : ℤ) - t * oddT.getD i 0) % p).toNat

/-- 41_ntt_1d R121: the twiddles are the powers of w reduced mod p (p = 1 starts at 1, and every butterfly
is 0 there); outputs of a level of length at least 2 are residues, they depend on w only through
w mod p, and at length 2 the root is not used. -/
def Obligations.NttDependsOnRootModulo : Prop :=
  ∀ (k : Nat) (a : List Nat) (p w : Nat), 1 ≤ p → a.length = 2 ^ (k + 1) →
    (∀ m, ∀ i < m, 2 ≤ p → (twiddles p w m 1)[i]? = some (w ^ i % p)) ∧
    (∀ x ∈ nttRec (k + 1) a p w, x < p) ∧
    nttRec (k + 1) a p w = nttRec (k + 1) a p (w % p) ∧
    (k = 0 → nttRec 1 a p w =
      [(a.getD 0 0 + a.getD 1 0) % p, (((a.getD 0 0 : ℤ) - a.getD 1 0) % p).toNat])

/-- 41_ntt_1d R122: the inverse transform is the same recursion followed by one scaling by
n^(p-2) mod p. -/
def Obligations.InttScalesOnce : Prop :=
  ∀ (k : Nat) (y : List Nat) (p wInv : Nat), y.length = 2 ^ k → 2 ^ k % p ≠ 0 → 1 ≤ p →
    (inttFn k y p wInv).length = 2 ^ k ∧
    ∀ i < 2 ^ k, (inttFn k y p wInv)[i]? =
      some ((nttRec k y p wInv).getD i 0 * ((2 ^ k) ^ (p - 2) % p) % p)

/-- 41_ntt_1d R123: NTT1, its encoding, its checks in order, its result and everything it leaves
unchanged. (Here and in the statements of the other vector commands a source word that was not written
since reset is the free draw of 70_reset R231; its number is the model's own, notes/assumptions/2 and 4.) -/
def Obligations.Ntt1Transforms : Prop :=
  HasOpcode 0x08 .ntt1 ∧ ∀ (k : Nat) (s : State),
    ChecksInOrder (.ntt1 k) s false false k (2 ^ k) ∧
    (s.Ready false false k (2 ^ k) →
      ∃ t vals, exec (.ntt1 k) s = .next t ∧ vals.length = 2 ^ k ∧
        vals = nttRec k (s.sequenceAt s.draws s.srca.toNat (2 ^ k)) s.mod.toNat s.root.toNat ∧
        WritesSequence s t s.dst.toNat vals)

/-- 41_ntt_1d R124: INTT1. -/
def Obligations.Intt1Inverts : Prop :=
  HasOpcode 0x09 .intt1 ∧ ∀ (k : Nat) (s : State),
    ChecksInOrder (.intt1 k) s false true k (2 ^ k) ∧
    (s.Ready false true k (2 ^ k) →
      ∃ t vals, exec (.intt1 k) s = .next t ∧ vals.length = 2 ^ k ∧
        vals = inttFn k (s.sequenceAt s.draws s.srca.toNat (2 ^ k)) s.mod.toNat s.rootInv.toNat ∧
        WritesSequence s t s.dst.toNat vals)

/-- 41_ntt_1d R126, the DFT law. -/
def Obligations.NttIsTheDft : Prop :=
  ∀ (k : Nat) (a : List Nat) (p w : Nat), 1 ≤ p → a.length = 2 ^ k →
    ((1 ≤ k ∧ w ^ (2 ^ (k - 1)) ≡ p - 1 [MOD p]) ∨ (k = 0 ∧ a.getD 0 0 < p)) →
    ∀ j < 2 ^ k, (nttRec k a p w)[j]? =
      some ((∑ i ∈ Finset.range (2 ^ k), a.getD i 0 * w ^ (i * j)) % p)

/-- 41_ntt_1d R127, the round-trip law. -/
def Obligations.InttUndoesNtt : Prop :=
  ∀ (k : Nat) (a : List Nat) (p w wInv : Nat), PrimitiveRoot p (2 ^ k) w → w * wInv % p = 1 →
    a.length = 2 ^ k → (∀ x ∈ a, x < p) →
    inttFn k (nttRec k a p w) p wInv = a

/-- 41_ntt_1d R128, linearity and the identity transform. -/
def Obligations.NttIsLinear : Prop :=
  (∀ (k : Nat) (a b : List Nat) (p w : Nat), 1 ≤ p → a.length = 2 ^ k → b.length = 2 ^ k →
    ∀ j < 2 ^ k, (nttRec k a p w).getD j 0 + (nttRec k b p w).getD j 0 ≡
      (nttRec k (List.zipWith (fun x y => (x + y) % p) a b) p w).getD j 0 [MOD p]) ∧
  ∀ x p w, nttRec 0 [x] p w = [x]

/-! ## The 2D transform -/

/-- 42_ntt_2d R141: NTT2. -/
def Obligations.Ntt2Transforms : Prop :=
  HasOpcode 0x0A .ntt2 ∧ ∀ (k : Nat) (s : State),
    ChecksInOrder (.ntt2 k) s false false k (2 ^ k * 2 ^ k) ∧
    (s.Ready false false k (2 ^ k * 2 ^ k) →
      ∃ t M, exec (.ntt2 k) s = .next t ∧
        M = ntt2Fn k (s.matrixAt s.draws s.srca.toNat (2 ^ k)) s.mod.toNat s.root.toNat ∧
        WritesMatrix s t s.dst.toNat (2 ^ k) M)

/-- 42_ntt_2d R142: INTT2. -/
def Obligations.Intt2Inverts : Prop :=
  HasOpcode 0x0B .intt2 ∧ ∀ (k : Nat) (s : State),
    ChecksInOrder (.intt2 k) s false true k (2 ^ k * 2 ^ k) ∧
    (s.Ready false true k (2 ^ k * 2 ^ k) →
      ∃ t M, exec (.intt2 k) s = .next t ∧
        M = intt2Fn k (s.matrixAt s.draws s.srca.toNat (2 ^ k)) s.mod.toNat s.rootInv.toNat ∧
        WritesMatrix s t s.dst.toNat (2 ^ k) M)

/-- 42_ntt_2d R140, R143: the forward transform is the row transform of every row and then of every
column; the inverse is the inverse of every column and then of every row, each 1D inverse with its own
scaling and none besides. -/
def Obligations.TransformsAreSeparable : Prop :=
  ∀ (k : Nat) (M : Mat) (p w : Nat), M.Square (2 ^ k) →
    (ntt2Fn k M p w).Square (2 ^ k) ∧ (intt2Fn k M p w).Square (2 ^ k) ∧
    (∀ v < 2 ^ k, (List.range (2 ^ k)).map (fun u => (ntt2Fn k M p w).entry u v) =
      nttRec k ((List.range (2 ^ k)).map fun r => (nttRec k (M.getD r []) p w).getD v 0) p w) ∧
    (∀ u < 2 ^ k, (intt2Fn k M p w).getD u [] =
      inttFn k ((List.range (2 ^ k)).map fun c =>
        (inttFn k ((List.range (2 ^ k)).map fun r => M.entry r c) p w).getD u 0) p w)

/-- 42_ntt_2d R144, the 2D DFT law. -/
def Obligations.Ntt2IsTheDft : Prop :=
  ∀ (k : Nat) (M : Mat) (p w : Nat), 1 ≤ p → M.Square (2 ^ k) → 1 ≤ k →
    w ^ (2 ^ (k - 1)) ≡ p - 1 [MOD p] →
    ∀ u < 2 ^ k, ∀ v < 2 ^ k, (ntt2Fn k M p w).entry u v =
      (∑ r ∈ Finset.range (2 ^ k), ∑ c ∈ Finset.range (2 ^ k), M.entry r c * w ^ (r * u + c * v)) % p

/-- 42_ntt_2d R145, the 2D round-trip law. -/
def Obligations.Intt2UndoesNtt2 : Prop :=
  ∀ (k : Nat) (M : Mat) (p w wInv : Nat), PrimitiveRoot p (2 ^ k) w → w * wInv % p = 1 →
    M.Square (2 ^ k) → (∀ row ∈ M, ∀ x ∈ row, x < p) →
    intt2Fn k (ntt2Fn k M p w) p wInv = M

/-! ## The convolutions and the pointwise product -/

/-- 43_convolution_oracle R161: CONVS. -/
def Obligations.ConvsConvolves : Prop :=
  HasOpcode 0x0E .convs ∧ ∀ (k : Nat) (s : State),
    ChecksInOrder (.convs k) s true false k (2 ^ k * 2 ^ k) ∧
    (s.Ready true false k (2 ^ k * 2 ^ k) →
      ∃ t M, exec (.convs k) s = .next t ∧
        M = convsFn (2 ^ k) (s.matrixAt s.draws s.srca.toNat (2 ^ k))
          (s.matrixAt (s.draws + 1) s.srcb.toNat (2 ^ k)) s.mod.toNat ∧
        WritesMatrix s t s.dst.toNat (2 ^ k) M)

/-- 43_convolution_oracle R162: every cell is the residue of the exact double sum with B flipped in both
axes, whatever the reduction schedule. -/
def Obligations.ConvsIsTheExactSum : Prop :=
  ∀ (n : Nat) (A B : Mat) (p i j : Nat), i < n → j < n →
    (convsFn n A B p).entry i j =
      (∑ k ∈ Finset.range n, ∑ l ∈ Finset.range n,
        A.entry (((i : ℤ) - k) % n).toNat (((j : ℤ) - l) % n).toNat *
          B.entry (n - 1 - k) (n - 1 - l)) % p

/-- 43_convolution_oracle R163: the oracle computes the circular convolution of A with B flipped in both
axes, that is a circular cross-correlation offset by one cell. -/
def Obligations.ConvsIsFlippedConvolution : Prop :=
  ∀ (n : Nat) (A B : Mat) (p : Nat), 1 ≤ p →
    convsFn n A B p = cconv n A (Mat.flip n B) p ∧
    ∀ i < n, ∀ j < n, (convsFn n A B p).entry i j =
      (∑ k ∈ Finset.range n, ∑ l ∈ Finset.range n,
        A.entry ((i + 1 + k) % n) ((j + 1 + l) % n) * B.entry k l) % p

/-- 44_pointwise_and_frequency R171: PMUL1. -/
def Obligations.Pmul1MultipliesPointwise : Prop :=
  HasOpcode 0x0C .pmul1 ∧ ∀ (k : Nat) (s : State),
    ChecksInOrder (.pmul1 k) s true false k (2 ^ k) ∧
    (s.Ready true false k (2 ^ k) →
      ∃ t, exec (.pmul1 k) s = .next t ∧
        WritesSequence s t s.dst.toNat ((List.range (2 ^ k)).map fun i =>
          (s.readWord s.draws (s.srca.toNat + i)).toNat *
            (s.readWord (s.draws + 1) (s.srcb.toNat + i)).toNat % s.mod.toNat))

/-- 44_pointwise_and_frequency R172: PMUL2. -/
def Obligations.Pmul2MultipliesPointwise : Prop :=
  HasOpcode 0x0D .pmul2 ∧ ∀ (k : Nat) (s : State),
    ChecksInOrder (.pmul2 k) s true false k (2 ^ k * 2 ^ k) ∧
    (s.Ready true false k (2 ^ k * 2 ^ k) →
      ∃ t, exec (.pmul2 k) s = .next t ∧
        WritesMatrix s t s.dst.toNat (2 ^ k) (Mat.build (2 ^ k) fun r c =>
          (s.matrixAt s.draws s.srca.toNat (2 ^ k)).entry r c *
            (s.matrixAt (s.draws + 1) s.srcb.toNat (2 ^ k)).entry r c % s.mod.toNat))

/-- 44_pointwise_and_frequency R174: CONVF. -/
def Obligations.ConvfConvolves : Prop :=
  HasOpcode 0x0F .convf ∧ ∀ (k : Nat) (s : State),
    ChecksInOrder (.convf k) s true true k (2 ^ k * 2 ^ k) ∧
    (s.Ready true true k (2 ^ k * 2 ^ k) →
      ∃ t M, exec (.convf k) s = .next t ∧
        M = convfFn k (s.matrixAt s.draws s.srca.toNat (2 ^ k))
          (s.matrixAt (s.draws + 1) s.srcb.toNat (2 ^ k)) s.mod.toNat s.root.toNat s.rootInv.toNat ∧
        WritesMatrix s t s.dst.toNat (2 ^ k) M)

/-- 44_pointwise_and_frequency R173: CONVF_FN is the inverse transform of the pointwise product of the two
transforms. -/
def Obligations.ConvfIsTransformProductInverse : Prop :=
  ∀ (k : Nat) (A B : Mat) (p w wInv : Nat), A.Square (2 ^ k) → B.Square (2 ^ k) →
    convfFn k A B p w wInv = intt2Fn k (Mat.build (2 ^ k) fun i j =>
      (ntt2Fn k A p w).entry i j * (ntt2Fn k B p w).entry i j % p) p wInv

/-- 44_pointwise_and_frequency R175, the convolution law. -/
def Obligations.ConvfIsCircularConvolution : Prop :=
  ∀ (k : Nat) (A B : Mat) (p w wInv : Nat), p.Prime → w * wInv % p = 1 →
    (k = 0 ∨ (1 ≤ k ∧ orderOf (w : ZMod p) = 2 ^ k)) → A.Square (2 ^ k) → B.Square (2 ^ k) →
    convfFn k A B p w wInv = cconv (2 ^ k) A B p

/-- 44_pointwise_and_frequency R176: the two convolution commands agree once one input is flipped. -/
def Obligations.ConvfMatchesConvsFlipped : Prop :=
  ∀ (k : Nat) (A B : Mat) (p w wInv : Nat), p.Prime → w * wInv % p = 1 →
    (k = 0 ∨ (1 ≤ k ∧ orderOf (w : ZMod p) = 2 ^ k)) → A.Square (2 ^ k) → B.Square (2 ^ k) →
    convfFn k A B p w wInv = convsFn (2 ^ k) A (Mat.flip (2 ^ k) B) p ∧
    convfFn k A (Mat.flip (2 ^ k) B) p w wInv = convsFn (2 ^ k) A B p

/-! ## Errors, completion and what commands leave alone -/

/-- 60_exceptions R202: every legal command except NOP fails with INVALID_MODULUS when MOD = 0. MOD = 1 is
accepted: the scalar commands give 0, and MINV, INTT1, INTT2 and CONVF then fail with NO_INVERSE (where
the checks before that one pass, R207). No command tests MOD further: the statements of the commands. -/
def Obligations.ModulusZeroIsRefusedAndOneIsAccepted : Prop :=
  (∀ (i : Instr) (s : State), s.mod = 0#32 → (∀ k, i ≠ .nop k) → EndsInError i s 2) ∧
  ∀ (k : Nat) (s : State), s.mod = 1#32 →
    (∀ i ∈ [Instr.madd k, .msub k, .mmul k, .mpow k],
      exec i s = .next { s with result := 0#32, status := s.statusOk }) ∧
    EndsInError (.minv k) s 6 ∧
    (k ≤ s.params.logNMax →
      (s.RegionsFit false (2 ^ k) → s.RegionsApart false (2 ^ k) → EndsInError (.intt1 k) s 6) ∧
      (s.RegionsFit false (2 ^ k * 2 ^ k) → s.RegionsApart false (2 ^ k * 2 ^ k) →
        EndsInError (.intt2 k) s 6) ∧
      (s.RegionsFit true (2 ^ k * 2 ^ k) → s.RegionsApart true (2 ^ k * 2 ^ k) →
        EndsInError (.convf k) s 6))

/-- 60_exceptions R208: when a command, legal or not, ends in an error, nothing but STATUS has changed: no
word of DMEM, not RESULT, and CMD keeps the command word. -/
def Obligations.ErrorsArePrecise : Prop :=
  ∀ s t : State, s.completeCommand = .next t → t.status.err = true →
    t = { s with status := t.status } ∧ t.dmem = s.dmem ∧ t.result = s.result ∧ t.cmd = s.cmd

/-- 60_exceptions R200, R209: a completion, of a legal word or not, clears BUSY, sets DONE, keeps HAZ, and
reports success with ERR = 0 and ECODE = 0 or one of the codes 1 to 6 with ERR = 1. -/
def Obligations.CompletionReportsOneOutcome : Prop :=
  ∀ s t : State, s.completeCommand = .next t →
    t.status = s.statusOk ∨ ∃ c, 1 ≤ c ∧ c ≤ 6 ∧ t.status = s.statusFailed c

/-- 10_state R36, 20_memory R68, 10_state R33: a command writes no register but RESULT and STATUS; RESULT
changes only by a scalar command that succeeds; no word outside its destination region changes, and no
word of its source regions; a command that fails changes no word and not RESULT. (The count of
draws is the model's own, notes/assumptions/4.) -/
def Obligations.CommandsWriteOnlyTheirDestination : Prop :=
  ∀ (i : Instr) (s t : State), exec i s = .next t →
    t = { s with result := t.result, status := t.status, dmem := t.dmem, draws := t.draws } ∧
    (t.result ≠ s.result → t.status.err = false ∧
      ∃ k, i = .madd k ∨ i = .msub k ∨ i = .mmul k ∨ i = .mpow k ∨ i = .minv k) ∧
    (vectorForm i = none ∨ t.status.err = true → t.dmem = s.dmem) ∧
    ∀ f, vectorForm i = some f → ∀ e,
      (e < s.dst.toNat ∨ s.dst.toNat + f.words i.logN ≤ e) ∨
      (s.srca.toNat ≤ e ∧ e < s.srca.toNat + f.words i.logN) ∨
      (f.readsB = true ∧ s.srcb.toNat ≤ e ∧ e < s.srcb.toNat + f.words i.logN) →
      t.dmem.lookup e = s.dmem.lookup e

/-- 10_state R40 and R41, 20_memory R63: whatever accesses the host makes while a command is in flight, the
command ends with the same RESULT, the same DMEM and the same outcome as if it had completed at once. The
premise is 70_reset R231's: the words it reads were written since reset. -/
def Obligations.ResultIsFixedAtIssue : Prop :=
  ∀ (s t t' : State) (i : Instr) (l : List HostAccess), s.status.busy = true → s.rstN = true →
    decode s.cmd = .ok i → s.SourcesWritten i →
    s.completeCommand = .next t → (s.hostAccesses l).completeCommand = .next t' →
    t'.result = t.result ∧ t'.dmem = t.dmem ∧ t'.status.err = t.status.err ∧
      t'.status.ecode = t.status.ecode ∧ t'.cmd = t.cmd

/-! ## The host's view of the registers and the data memory -/

/-- 10_state R22 to R34, R42: out of reset, what a read of each register's offset returns, with a command in
flight or without; the read changes nothing. -/
def Obligations.RegisterMapReads : Prop :=
  ∀ s : State, s.rstN = true → ∀ off v, (off, v) ∈
    [(0x000, 0x4E540001#32),
     (0x004, BitVec.ofNat 32 (s.params.elemW % 64 + 256 * (s.params.logNMax % 16) +
        65536 * (s.params.memLog2 % 16))),
     (0x008, BitVec.ofNat 32 s.ie.toNat),
     (0x00C, BitVec.ofNat 32 (s.status.busy.toNat + 2 * s.status.done.toNat + 4 * s.status.err.toNat +
        8 * s.status.haz.toNat + 256 * s.status.ecode.toNat)),
     (0x010, s.cmd), (0x014, s.mod), (0x018, s.root), (0x01C, s.rootInv), (0x020, s.opa),
     (0x024, s.opb), (0x028, s.result), (0x02C, BitVec.ofNat 32 s.srca.toNat),
     (0x030, BitVec.ofNat 32 s.srcb.toNat), (0x034, BitVec.ofNat 32 s.dst.toNat)] →
    s.hostAccess (busRead off) = { s with response := some (.data v) }

/-- 20_memory R51, R54, 70_reset R233: an access that is not an aligned 32-bit one, or at an unmapped
offset, or made while `rst_n` = 0, completes with a bus error and changes no state; a read rejected out
of reset returns 0. -/
def Obligations.BusErrorsChangeNothing : Prop :=
  ∀ (s : State) (a : HostAccess),
    (s.rstN = true →
      (a.size ≠ 2#2 ∨ a.offset.toNat % 4 ≠ 0 ∨ (0x038 ≤ a.offset.toNat ∧ a.offset.toNat ≤ 0x0FFFF) ∨
        0x10000 + 4 * s.params.memWords ≤ a.offset.toNat) →
      s.hostAccess a = { s with response := some (if a.write then .writeError else .readError 0#32) }) ∧
    (s.rstN = false → ∃ r, (r = .writeError ∨ ∃ v, r = .readError v) ∧
      s.hostAccess a = { s with response := some r })

/-- 10_state R35, R28 to R32: an accepted write to MOD, ROOT, ROOT_INV, OPA or OPB stores
`v[ELEM_W-1:0]`, which a read returns zero-extended; no other register and no word changes. -/
def Obligations.ElementRegistersKeepLowBits : Prop :=
  ∀ (s : State) (v : Word), s.rstN = true → s.status.busy = false →
    ∀ off ∈ [0x014, 0x018, 0x01C, 0x020, 0x024],
      let t := s.hostAccess (busWrite off v)
      t.response = some .written ∧ t.dmem = s.dmem ∧
      (t.hostAccess (busRead off)).response =
        some (.data (BitVec.ofNat 32 (v.toNat % 2 ^ s.params.elemW))) ∧
      ∀ off' ∈ registerOffsets, off' ≠ off →
        (t.hostAccess (busRead off')).response = (s.hostAccess (busRead off')).response

/-- 10_state R34: SRCA, SRCB and DST keep bits [15:0] of an accepted write. -/
def Obligations.AddressRegistersKeepLowBits : Prop :=
  ∀ (s : State) (v : Word), s.rstN = true → s.status.busy = false →
    ∀ off ∈ [0x02C, 0x030, 0x034],
      let t := s.hostAccess (busWrite off v)
      t.response = some .written ∧ t.dmem = s.dmem ∧
      (t.hostAccess (busRead off)).response = some (.data (BitVec.ofNat 32 (v.toNat % 2 ^ 16))) ∧
      ∀ off' ∈ registerOffsets, off' ≠ off →
        (t.hostAccess (busRead off')).response = (s.hostAccess (busRead off')).response

/-- 20_memory R53: with no command in flight, a read of a word written since reset returns it, and an
accepted write to the data window stores `v[ELEM_W-1:0]`, which a read of the same word returns; every
other word, and every register, is as before. A read of a word not written since reset returns some
ELEM_W-bit value (70_reset R231), and no read changes anything but the response (20_memory R61) and the
model's own count of draws (notes/assumptions/2 and 4). -/
def Obligations.DataWindowWriteThenRead : Prop :=
  ∀ (s : State) (v : Word) (e : Nat), s.rstN = true → s.status.busy = false → e < s.params.memWords →
    s.params.memLog2 ≤ 14 →
    let t := s.hostAccess (busWrite (0x10000 + 4 * e) v)
    (∀ w, s.dmem.lookup e = some w →
      (s.hostAccess (busRead (0x10000 + 4 * e))).response = some (.data w)) ∧
    (s.dmem.lookup e = none → ∃ w : Word, w.toNat < 2 ^ s.params.elemW ∧
      (s.hostAccess (busRead (0x10000 + 4 * e))).response = some (.data w)) ∧
    s.hostAccess (busRead (0x10000 + 4 * e)) = { s with
      response := (s.hostAccess (busRead (0x10000 + 4 * e))).response
      draws := (s.hostAccess (busRead (0x10000 + 4 * e))).draws } ∧
    (t.hostAccess (busRead (0x10000 + 4 * e))).response =
      some (.data (BitVec.ofNat 32 (v.toNat % 2 ^ s.params.elemW))) ∧
    (∀ e', e' ≠ e → t.dmem.lookup e' = s.dmem.lookup e') ∧
    t = { s with dmem := t.dmem, response := some .written }

/-- 10_state R27, R40: the issue step. All 32 bits of the word are stored, BUSY is set, DONE, ERR and ECODE
are cleared, and nothing else changes. -/
def Obligations.WriteToCmdIssues : Prop :=
  ∀ (s : State) (v : Word), s.rstN = true → s.status.busy = false →
    s.hostAccess (busWrite 0x010 v) = { s with
      cmd := v, response := some .written
      status := { busy := true, done := false, err := false, haz := s.status.haz, ecode := 0#4 } }

/-- 10_state R41: while BUSY = 1 a write to an operand register, to CMD or to a word of DMEM is dropped and
sets HAZ; CTRL and STATUS are written. ID, PARAM and RESULT ignore a write always, while BUSY = 1 or not
(10_state R22): it is answered OK and changes nothing, HAZ included. -/
def Obligations.WritesWhileBusyAreDropped : Prop :=
  ∀ (s : State) (v : Word), s.rstN = true →
    (s.status.busy = true →
      (∀ off, off ∈ [0x010, 0x014, 0x018, 0x01C, 0x020, 0x024, 0x02C, 0x030, 0x034] ∨
          (∃ e, e < s.params.memWords ∧ e < 2 ^ 14 ∧ off = 0x10000 + 4 * e) →
        s.hostAccess (busWrite off v) =
          { s with status := { s.status with haz := true }, response := some .written }) ∧
      s.hostAccess (busWrite 0x008 v) = { s with ie := v.getLsbD 0, response := some .written } ∧
      (s.hostAccess (busWrite 0x00C v)).response = some .written ∧
      (s.hostAccess (busWrite 0x00C v)).status.haz = (s.status.haz && !v.getLsbD 3)) ∧
    ∀ off ∈ [0x000, 0x004, 0x028],
      s.hostAccess (busWrite off v) = { s with response := some .written }

/-- 10_state R26, 45_system R191: a write to STATUS clears DONE, ERR with ECODE, and HAZ where its bits 1,
2 and 3 are 1, leaves them where they are 0, and touches nothing else, whatever BUSY is. -/
def Obligations.StatusIsWriteOneToClear : Prop :=
  ∀ (s : State) (v : Word), s.rstN = true →
    s.hostAccess (busWrite 0x00C v) = { s with
      response := some .written
      status := { busy := s.status.busy, done := s.status.done && !v.getLsbD 1,
                  err := s.status.err && !v.getLsbD 2, haz := s.status.haz && !v.getLsbD 3,
                  ecode := if v.getLsbD 2 = true then 0#4 else s.status.ecode } }

/-- 10_state R25 and R44: `irq` is DONE AND IE in every state; a write to CTRL, whatever BUSY is, keeps bit 0
alone, which a read returns with zeros above, and `irq` is then DONE AND that bit; a completion with IE = 1
raises `irq`, and with IE = 0 it does not. -/
def Obligations.InterruptIsDoneAndEnabled : Prop :=
  (∀ s : State, s.irq = (s.status.done && s.ie)) ∧
  (∀ (s : State) (v : Word), s.rstN = true →
    s.hostAccess (busWrite 0x008 v) = { s with ie := v.getLsbD 0, response := some .written } ∧
    (s.hostAccess (busWrite 0x008 v)).irq = (s.status.done && v.getLsbD 0) ∧
    ((s.hostAccess (busWrite 0x008 v)).hostAccess (busRead 0x008)).response =
      some (.data (BitVec.ofNat 32 (v.toNat % 2)))) ∧
  ∀ s t : State, s.completeCommand = .next t → t.irq = s.ie

/-- 10_state R42: while BUSY = 1 a read of a word outside the destination region that was written since
reset returns its value; a read inside returns some ELEM_W-bit value and leaves the machine as it was. The
destination region is the one the command word in CMD has, `dcount` words, even if it will fail its
checks. (The counts of draws are the model's own, notes/assumptions/3 and 4.) -/
def Obligations.ReadsWhileBusy : Prop :=
  ∀ (s : State) (e dcount : Nat), s.rstN = true → s.status.busy = true →
    e < s.params.memWords → s.params.memLog2 ≤ 14 →
    (dcount = match decode s.cmd with
      | .error _ => 0
      | .ok i => match i with
        | .nop _ => 0 | .madd _ => 0 | .msub _ => 0 | .mmul _ => 0 | .mpow _ => 0 | .minv _ => 0
        | .ntt1 k => 2 ^ k | .intt1 k => 2 ^ k | .pmul1 k => 2 ^ k
        | .ntt2 k => 2 ^ k * 2 ^ k | .intt2 k => 2 ^ k * 2 ^ k | .pmul2 k => 2 ^ k * 2 ^ k
        | .convs k => 2 ^ k * 2 ^ k | .convf k => 2 ^ k * 2 ^ k) →
    (e < s.dst.toNat ∨ s.dst.toNat + dcount ≤ e →
      ∀ w, s.dmem.lookup e = some w →
        (s.hostAccess (busRead (0x10000 + 4 * e))).response = some (.data w)) ∧
    (s.dst.toNat ≤ e → e < s.dst.toNat + dcount →
      ∃ w : Word, w.toNat < 2 ^ s.params.elemW ∧
        (s.hostAccess (busRead (0x10000 + 4 * e))).response = some (.data w)) ∧
    s.hostAccess (busRead (0x10000 + 4 * e)) = { s with
      response := (s.hostAccess (busRead (0x10000 + 4 * e))).response
      draws := (s.hostAccess (busRead (0x10000 + 4 * e))).draws }

/-- 45_system R193, 70_reset R237: WAIT ends. After `polls` reads that find BUSY = 1 and the unit's turn, the
last read of STATUS finds BUSY = 0 and DONE = 1. -/
def Obligations.WaitEnds : Prop :=
  ∀ (s : State) (polls : Nat) (rest : List Input), s.rstN = true → s.status.busy = true →
    s.inputs = hostWait polls ++ rest →
    ∃ t w, Host.Core.run Sys2Proof.core (polls + 2) s = .next t ∧ t.response = some (.data w) ∧
      w.getLsbD 0 = false ∧ w.getLsbD 1 = true ∧ t.status.busy = false ∧ t.inputs = rest

/-! ## Reset and the invariant -/

/-- 70_reset_and_hazards R230, R231: the reset action. Every register takes its reset value, a command in
flight is abandoned, `irq` is 0, and no word of DMEM has a value any longer. (The parameters are
constants; the latest response, the count of draws and the inputs to come are kept: notes/assumptions/4
to 7.) The action is for a sample of 0: a sample of 1 changes nothing but the level last sampled. -/
def Obligations.ResetPinResetsTheBlock : Prop :=
  ∀ (s : State) (rest : List Input),
    (s.inputs = .resetPin false :: rest →
      ∃ t, step s = .next t ∧ t.irq = false ∧ (∀ e, t.dmem.lookup e = none) ∧
        t = { params := s.params, ie := false,
              status := { busy := false, done := false, err := false, haz := false, ecode := 0#4 },
              cmd := 0#32, mod := 0#32, root := 0#32, rootInv := 0#32, opa := 0#32, opb := 0#32,
              result := 0#32, srca := 0#16, srcb := 0#16, dst := 0#16, dmem := [], rstN := false,
              response := s.response, draws := s.draws, inputs := rest }) ∧
    (s.inputs = .resetPin true :: rest → step s = .next { s with rstN := true, inputs := rest })

/-- 10_state R22, 70_reset_and_hazards R230 to R232: right after reset every register reads as the reset column
says, the unit is idle, `irq` is 0, and no word of DMEM has been written. (That the pin is released, so that
the host can read, is the model's choice: notes/assumptions/7.) -/
def Obligations.ResetStateReadsTheResetColumn : Prop :=
  ∀ p : Params, p.Valid →
    (∀ off v, (off, v) ∈
      [(0x000, 0x4E540001#32),
       (0x004, BitVec.ofNat 32 (p.elemW + 256 * p.logNMax + 65536 * p.memLog2)),
       (0x008, 0#32), (0x00C, 0#32), (0x010, 0#32), (0x014, 0#32), (0x018, 0#32), (0x01C, 0#32),
       (0x020, 0#32), (0x024, 0#32), (0x028, 0#32), (0x02C, 0#32), (0x030, 0#32), (0x034, 0#32)] →
      ((State.resetWith p).hostAccess (busRead off)).response = some (.data v)) ∧
    (State.resetWith p).status.busy = false ∧ (State.resetWith p).irq = false ∧
    ∀ e, (State.resetWith p).dmem.lookup e = none

/-- The invariant holds in the reset state of every machine whose parameters are in their ranges
(10_state R22, R26, 70_reset R230). -/
def Obligations.ResetMeetsTheInvariant : Prop :=
  ∀ p : Params, p.Valid → (State.resetWith p).Inv

/-- Every step keeps the invariant: the parameters, the ELEM_W-bit registers and words (10_state R28 to R35,
R39, 20_memory R56), STATUS (R26, 60_exceptions R200), the canonical form of DMEM, and a block held in
reset (70_reset R233). -/
def Obligations.EveryStepKeepsTheInvariant : Prop :=
  ∀ s t : State, s.Inv → step s = .next t → t.Inv
end

