-- ==== Sys2Proof/Laws/State.lean ====
section
/-! SUPPORT. What each update of the state does to each field, so that no proof unfolds an update; and the
fields of STATUS after each of its updates. -/

namespace Sys2Proof.Machine

/-! ### `State.setResult` -/

@[simp] theorem State.setResult_params (s : State) (v : Nat) : (s.setResult v).params = s.params := rfl
@[simp] theorem State.setResult_ie (s : State) (v : Nat) : (s.setResult v).ie = s.ie := rfl
@[simp] theorem State.setResult_status (s : State) (v : Nat) : (s.setResult v).status = s.status := rfl
@[simp] theorem State.setResult_cmd (s : State) (v : Nat) : (s.setResult v).cmd = s.cmd := rfl
@[simp] theorem State.setResult_mod (s : State) (v : Nat) : (s.setResult v).mod = s.mod := rfl
@[simp] theorem State.setResult_root (s : State) (v : Nat) : (s.setResult v).root = s.root := rfl
@[simp] theorem State.setResult_rootInv (s : State) (v : Nat) : (s.setResult v).rootInv = s.rootInv := rfl
@[simp] theorem State.setResult_opa (s : State) (v : Nat) : (s.setResult v).opa = s.opa := rfl
@[simp] theorem State.setResult_opb (s : State) (v : Nat) : (s.setResult v).opb = s.opb := rfl
@[simp] theorem State.setResult_result (s : State) (v : Nat) : (s.setResult v).result = BitVec.ofNat 32 v := rfl
@[simp] theorem State.setResult_srca (s : State) (v : Nat) : (s.setResult v).srca = s.srca := rfl
@[simp] theorem State.setResult_srcb (s : State) (v : Nat) : (s.setResult v).srcb = s.srcb := rfl
@[simp] theorem State.setResult_dst (s : State) (v : Nat) : (s.setResult v).dst = s.dst := rfl
@[simp] theorem State.setResult_dmem (s : State) (v : Nat) : (s.setResult v).dmem = s.dmem := rfl
@[simp] theorem State.setResult_rstN (s : State) (v : Nat) : (s.setResult v).rstN = s.rstN := rfl
@[simp] theorem State.setResult_response (s : State) (v : Nat) : (s.setResult v).response = s.response := rfl
@[simp] theorem State.setResult_draws (s : State) (v : Nat) : (s.setResult v).draws = s.draws := rfl
@[simp] theorem State.setResult_inputs (s : State) (v : Nat) : (s.setResult v).inputs = s.inputs := rfl

/-! ### `State.setStatus` -/

@[simp] theorem State.setStatus_params (s : State) (st : Status) : (s.setStatus st).params = s.params := rfl
@[simp] theorem State.setStatus_ie (s : State) (st : Status) : (s.setStatus st).ie = s.ie := rfl
@[simp] theorem State.setStatus_status (s : State) (st : Status) : (s.setStatus st).status = st := rfl
@[simp] theorem State.setStatus_cmd (s : State) (st : Status) : (s.setStatus st).cmd = s.cmd := rfl
@[simp] theorem State.setStatus_mod (s : State) (st : Status) : (s.setStatus st).mod = s.mod := rfl
@[simp] theorem State.setStatus_root (s : State) (st : Status) : (s.setStatus st).root = s.root := rfl
@[simp] theorem State.setStatus_rootInv (s : State) (st : Status) : (s.setStatus st).rootInv = s.rootInv := rfl
@[simp] theorem State.setStatus_opa (s : State) (st : Status) : (s.setStatus st).opa = s.opa := rfl
@[simp] theorem State.setStatus_opb (s : State) (st : Status) : (s.setStatus st).opb = s.opb := rfl
@[simp] theorem State.setStatus_result (s : State) (st : Status) : (s.setStatus st).result = s.result := rfl
@[simp] theorem State.setStatus_srca (s : State) (st : Status) : (s.setStatus st).srca = s.srca := rfl
@[simp] theorem State.setStatus_srcb (s : State) (st : Status) : (s.setStatus st).srcb = s.srcb := rfl
@[simp] theorem State.setStatus_dst (s : State) (st : Status) : (s.setStatus st).dst = s.dst := rfl
@[simp] theorem State.setStatus_dmem (s : State) (st : Status) : (s.setStatus st).dmem = s.dmem := rfl
@[simp] theorem State.setStatus_rstN (s : State) (st : Status) : (s.setStatus st).rstN = s.rstN := rfl
@[simp] theorem State.setStatus_response (s : State) (st : Status) : (s.setStatus st).response = s.response := rfl
@[simp] theorem State.setStatus_draws (s : State) (st : Status) : (s.setStatus st).draws = s.draws := rfl
@[simp] theorem State.setStatus_inputs (s : State) (st : Status) : (s.setStatus st).inputs = s.inputs := rfl

/-! ### `State.setDmem` -/

@[simp] theorem State.setDmem_params (s : State) (m : Memory) : (s.setDmem m).params = s.params := rfl
@[simp] theorem State.setDmem_ie (s : State) (m : Memory) : (s.setDmem m).ie = s.ie := rfl
@[simp] theorem State.setDmem_status (s : State) (m : Memory) : (s.setDmem m).status = s.status := rfl
@[simp] theorem State.setDmem_cmd (s : State) (m : Memory) : (s.setDmem m).cmd = s.cmd := rfl
@[simp] theorem State.setDmem_mod (s : State) (m : Memory) : (s.setDmem m).mod = s.mod := rfl
@[simp] theorem State.setDmem_root (s : State) (m : Memory) : (s.setDmem m).root = s.root := rfl
@[simp] theorem State.setDmem_rootInv (s : State) (m : Memory) : (s.setDmem m).rootInv = s.rootInv := rfl
@[simp] theorem State.setDmem_opa (s : State) (m : Memory) : (s.setDmem m).opa = s.opa := rfl
@[simp] theorem State.setDmem_opb (s : State) (m : Memory) : (s.setDmem m).opb = s.opb := rfl
@[simp] theorem State.setDmem_result (s : State) (m : Memory) : (s.setDmem m).result = s.result := rfl
@[simp] theorem State.setDmem_srca (s : State) (m : Memory) : (s.setDmem m).srca = s.srca := rfl
@[simp] theorem State.setDmem_srcb (s : State) (m : Memory) : (s.setDmem m).srcb = s.srcb := rfl
@[simp] theorem State.setDmem_dst (s : State) (m : Memory) : (s.setDmem m).dst = s.dst := rfl
@[simp] theorem State.setDmem_dmem (s : State) (m : Memory) : (s.setDmem m).dmem = m := rfl
@[simp] theorem State.setDmem_rstN (s : State) (m : Memory) : (s.setDmem m).rstN = s.rstN := rfl
@[simp] theorem State.setDmem_response (s : State) (m : Memory) : (s.setDmem m).response = s.response := rfl
@[simp] theorem State.setDmem_draws (s : State) (m : Memory) : (s.setDmem m).draws = s.draws := rfl
@[simp] theorem State.setDmem_inputs (s : State) (m : Memory) : (s.setDmem m).inputs = s.inputs := rfl

/-! ### `State.takeDraws` -/

@[simp] theorem State.takeDraws_params (s : State) (n : Nat) : (s.takeDraws n).params = s.params := rfl
@[simp] theorem State.takeDraws_ie (s : State) (n : Nat) : (s.takeDraws n).ie = s.ie := rfl
@[simp] theorem State.takeDraws_status (s : State) (n : Nat) : (s.takeDraws n).status = s.status := rfl
@[simp] theorem State.takeDraws_cmd (s : State) (n : Nat) : (s.takeDraws n).cmd = s.cmd := rfl
@[simp] theorem State.takeDraws_mod (s : State) (n : Nat) : (s.takeDraws n).mod = s.mod := rfl
@[simp] theorem State.takeDraws_root (s : State) (n : Nat) : (s.takeDraws n).root = s.root := rfl
@[simp] theorem State.takeDraws_rootInv (s : State) (n : Nat) : (s.takeDraws n).rootInv = s.rootInv := rfl
@[simp] theorem State.takeDraws_opa (s : State) (n : Nat) : (s.takeDraws n).opa = s.opa := rfl
@[simp] theorem State.takeDraws_opb (s : State) (n : Nat) : (s.takeDraws n).opb = s.opb := rfl
@[simp] theorem State.takeDraws_result (s : State) (n : Nat) : (s.takeDraws n).result = s.result := rfl
@[simp] theorem State.takeDraws_srca (s : State) (n : Nat) : (s.takeDraws n).srca = s.srca := rfl
@[simp] theorem State.takeDraws_srcb (s : State) (n : Nat) : (s.takeDraws n).srcb = s.srcb := rfl
@[simp] theorem State.takeDraws_dst (s : State) (n : Nat) : (s.takeDraws n).dst = s.dst := rfl
@[simp] theorem State.takeDraws_dmem (s : State) (n : Nat) : (s.takeDraws n).dmem = s.dmem := rfl
@[simp] theorem State.takeDraws_rstN (s : State) (n : Nat) : (s.takeDraws n).rstN = s.rstN := rfl
@[simp] theorem State.takeDraws_response (s : State) (n : Nat) : (s.takeDraws n).response = s.response := rfl
@[simp] theorem State.takeDraws_draws (s : State) (n : Nat) : (s.takeDraws n).draws = s.draws + n := rfl
@[simp] theorem State.takeDraws_inputs (s : State) (n : Nat) : (s.takeDraws n).inputs = s.inputs := rfl

/-! ### `State.setInputs` -/

@[simp] theorem State.setInputs_params (s : State) (l : List Input) : (s.setInputs l).params = s.params := rfl
@[simp] theorem State.setInputs_ie (s : State) (l : List Input) : (s.setInputs l).ie = s.ie := rfl
@[simp] theorem State.setInputs_status (s : State) (l : List Input) : (s.setInputs l).status = s.status := rfl
@[simp] theorem State.setInputs_cmd (s : State) (l : List Input) : (s.setInputs l).cmd = s.cmd := rfl
@[simp] theorem State.setInputs_mod (s : State) (l : List Input) : (s.setInputs l).mod = s.mod := rfl
@[simp] theorem State.setInputs_root (s : State) (l : List Input) : (s.setInputs l).root = s.root := rfl
@[simp] theorem State.setInputs_rootInv (s : State) (l : List Input) : (s.setInputs l).rootInv = s.rootInv := rfl
@[simp] theorem State.setInputs_opa (s : State) (l : List Input) : (s.setInputs l).opa = s.opa := rfl
@[simp] theorem State.setInputs_opb (s : State) (l : List Input) : (s.setInputs l).opb = s.opb := rfl
@[simp] theorem State.setInputs_result (s : State) (l : List Input) : (s.setInputs l).result = s.result := rfl
@[simp] theorem State.setInputs_srca (s : State) (l : List Input) : (s.setInputs l).srca = s.srca := rfl
@[simp] theorem State.setInputs_srcb (s : State) (l : List Input) : (s.setInputs l).srcb = s.srcb := rfl
@[simp] theorem State.setInputs_dst (s : State) (l : List Input) : (s.setInputs l).dst = s.dst := rfl
@[simp] theorem State.setInputs_dmem (s : State) (l : List Input) : (s.setInputs l).dmem = s.dmem := rfl
@[simp] theorem State.setInputs_rstN (s : State) (l : List Input) : (s.setInputs l).rstN = s.rstN := rfl
@[simp] theorem State.setInputs_response (s : State) (l : List Input) : (s.setInputs l).response = s.response := rfl
@[simp] theorem State.setInputs_draws (s : State) (l : List Input) : (s.setInputs l).draws = s.draws := rfl
@[simp] theorem State.setInputs_inputs (s : State) (l : List Input) : (s.setInputs l).inputs = l := rfl

/-! ### `State.respond` -/

@[simp] theorem State.respond_params (s : State) (r : BusResponse) : (s.respond r).params = s.params := rfl
@[simp] theorem State.respond_ie (s : State) (r : BusResponse) : (s.respond r).ie = s.ie := rfl
@[simp] theorem State.respond_status (s : State) (r : BusResponse) : (s.respond r).status = s.status := rfl
@[simp] theorem State.respond_cmd (s : State) (r : BusResponse) : (s.respond r).cmd = s.cmd := rfl
@[simp] theorem State.respond_mod (s : State) (r : BusResponse) : (s.respond r).mod = s.mod := rfl
@[simp] theorem State.respond_root (s : State) (r : BusResponse) : (s.respond r).root = s.root := rfl
@[simp] theorem State.respond_rootInv (s : State) (r : BusResponse) : (s.respond r).rootInv = s.rootInv := rfl
@[simp] theorem State.respond_opa (s : State) (r : BusResponse) : (s.respond r).opa = s.opa := rfl
@[simp] theorem State.respond_opb (s : State) (r : BusResponse) : (s.respond r).opb = s.opb := rfl
@[simp] theorem State.respond_result (s : State) (r : BusResponse) : (s.respond r).result = s.result := rfl
@[simp] theorem State.respond_srca (s : State) (r : BusResponse) : (s.respond r).srca = s.srca := rfl
@[simp] theorem State.respond_srcb (s : State) (r : BusResponse) : (s.respond r).srcb = s.srcb := rfl
@[simp] theorem State.respond_dst (s : State) (r : BusResponse) : (s.respond r).dst = s.dst := rfl
@[simp] theorem State.respond_dmem (s : State) (r : BusResponse) : (s.respond r).dmem = s.dmem := rfl
@[simp] theorem State.respond_rstN (s : State) (r : BusResponse) : (s.respond r).rstN = s.rstN := rfl
@[simp] theorem State.respond_response (s : State) (r : BusResponse) : (s.respond r).response = some r := rfl
@[simp] theorem State.respond_draws (s : State) (r : BusResponse) : (s.respond r).draws = s.draws := rfl
@[simp] theorem State.respond_inputs (s : State) (r : BusResponse) : (s.respond r).inputs = s.inputs := rfl

/-! ### `State.issue` -/

@[simp] theorem State.issue_params (s : State) (v : Word) : (s.issue v).params = s.params := rfl
@[simp] theorem State.issue_ie (s : State) (v : Word) : (s.issue v).ie = s.ie := rfl
@[simp] theorem State.issue_status (s : State) (v : Word) : (s.issue v).status = s.status.issued := rfl
@[simp] theorem State.issue_cmd (s : State) (v : Word) : (s.issue v).cmd = v := rfl
@[simp] theorem State.issue_mod (s : State) (v : Word) : (s.issue v).mod = s.mod := rfl
@[simp] theorem State.issue_root (s : State) (v : Word) : (s.issue v).root = s.root := rfl
@[simp] theorem State.issue_rootInv (s : State) (v : Word) : (s.issue v).rootInv = s.rootInv := rfl
@[simp] theorem State.issue_opa (s : State) (v : Word) : (s.issue v).opa = s.opa := rfl
@[simp] theorem State.issue_opb (s : State) (v : Word) : (s.issue v).opb = s.opb := rfl
@[simp] theorem State.issue_result (s : State) (v : Word) : (s.issue v).result = s.result := rfl
@[simp] theorem State.issue_srca (s : State) (v : Word) : (s.issue v).srca = s.srca := rfl
@[simp] theorem State.issue_srcb (s : State) (v : Word) : (s.issue v).srcb = s.srcb := rfl
@[simp] theorem State.issue_dst (s : State) (v : Word) : (s.issue v).dst = s.dst := rfl
@[simp] theorem State.issue_dmem (s : State) (v : Word) : (s.issue v).dmem = s.dmem := rfl
@[simp] theorem State.issue_rstN (s : State) (v : Word) : (s.issue v).rstN = s.rstN := rfl
@[simp] theorem State.issue_response (s : State) (v : Word) : (s.issue v).response = s.response := rfl
@[simp] theorem State.issue_draws (s : State) (v : Word) : (s.issue v).draws = s.draws := rfl
@[simp] theorem State.issue_inputs (s : State) (v : Word) : (s.issue v).inputs = s.inputs := rfl

/-! ### `State.completeOk` -/

@[simp] theorem State.completeOk_params (s : State) : (s.completeOk).params = s.params := rfl
@[simp] theorem State.completeOk_ie (s : State) : (s.completeOk).ie = s.ie := rfl
@[simp] theorem State.completeOk_status (s : State) : (s.completeOk).status = s.status.completedOk := rfl
@[simp] theorem State.completeOk_cmd (s : State) : (s.completeOk).cmd = s.cmd := rfl
@[simp] theorem State.completeOk_mod (s : State) : (s.completeOk).mod = s.mod := rfl
@[simp] theorem State.completeOk_root (s : State) : (s.completeOk).root = s.root := rfl
@[simp] theorem State.completeOk_rootInv (s : State) : (s.completeOk).rootInv = s.rootInv := rfl
@[simp] theorem State.completeOk_opa (s : State) : (s.completeOk).opa = s.opa := rfl
@[simp] theorem State.completeOk_opb (s : State) : (s.completeOk).opb = s.opb := rfl
@[simp] theorem State.completeOk_result (s : State) : (s.completeOk).result = s.result := rfl
@[simp] theorem State.completeOk_srca (s : State) : (s.completeOk).srca = s.srca := rfl
@[simp] theorem State.completeOk_srcb (s : State) : (s.completeOk).srcb = s.srcb := rfl
@[simp] theorem State.completeOk_dst (s : State) : (s.completeOk).dst = s.dst := rfl
@[simp] theorem State.completeOk_dmem (s : State) : (s.completeOk).dmem = s.dmem := rfl
@[simp] theorem State.completeOk_rstN (s : State) : (s.completeOk).rstN = s.rstN := rfl
@[simp] theorem State.completeOk_response (s : State) : (s.completeOk).response = s.response := rfl
@[simp] theorem State.completeOk_draws (s : State) : (s.completeOk).draws = s.draws := rfl
@[simp] theorem State.completeOk_inputs (s : State) : (s.completeOk).inputs = s.inputs := rfl

/-! ### `State.completeError` -/

@[simp] theorem State.completeError_params (s : State) (c : CmdError) : (s.completeError c).params = s.params := rfl
@[simp] theorem State.completeError_ie (s : State) (c : CmdError) : (s.completeError c).ie = s.ie := rfl
@[simp] theorem State.completeError_status (s : State) (c : CmdError) : (s.completeError c).status = s.status.completedError c := rfl
@[simp] theorem State.completeError_cmd (s : State) (c : CmdError) : (s.completeError c).cmd = s.cmd := rfl
@[simp] theorem State.completeError_mod (s : State) (c : CmdError) : (s.completeError c).mod = s.mod := rfl
@[simp] theorem State.completeError_root (s : State) (c : CmdError) : (s.completeError c).root = s.root := rfl
@[simp] theorem State.completeError_rootInv (s : State) (c : CmdError) : (s.completeError c).rootInv = s.rootInv := rfl
@[simp] theorem State.completeError_opa (s : State) (c : CmdError) : (s.completeError c).opa = s.opa := rfl
@[simp] theorem State.completeError_opb (s : State) (c : CmdError) : (s.completeError c).opb = s.opb := rfl
@[simp] theorem State.completeError_result (s : State) (c : CmdError) : (s.completeError c).result = s.result := rfl
@[simp] theorem State.completeError_srca (s : State) (c : CmdError) : (s.completeError c).srca = s.srca := rfl
@[simp] theorem State.completeError_srcb (s : State) (c : CmdError) : (s.completeError c).srcb = s.srcb := rfl
@[simp] theorem State.completeError_dst (s : State) (c : CmdError) : (s.completeError c).dst = s.dst := rfl
@[simp] theorem State.completeError_dmem (s : State) (c : CmdError) : (s.completeError c).dmem = s.dmem := rfl
@[simp] theorem State.completeError_rstN (s : State) (c : CmdError) : (s.completeError c).rstN = s.rstN := rfl
@[simp] theorem State.completeError_response (s : State) (c : CmdError) : (s.completeError c).response = s.response := rfl
@[simp] theorem State.completeError_draws (s : State) (c : CmdError) : (s.completeError c).draws = s.draws := rfl
@[simp] theorem State.completeError_inputs (s : State) (c : CmdError) : (s.completeError c).inputs = s.inputs := rfl

/-! ### `State.dropWrite` -/

@[simp] theorem State.dropWrite_params (s : State) : (s.dropWrite).params = s.params := rfl
@[simp] theorem State.dropWrite_ie (s : State) : (s.dropWrite).ie = s.ie := rfl
@[simp] theorem State.dropWrite_status (s : State) : (s.dropWrite).status = s.status.withHazard := rfl
@[simp] theorem State.dropWrite_cmd (s : State) : (s.dropWrite).cmd = s.cmd := rfl
@[simp] theorem State.dropWrite_mod (s : State) : (s.dropWrite).mod = s.mod := rfl
@[simp] theorem State.dropWrite_root (s : State) : (s.dropWrite).root = s.root := rfl
@[simp] theorem State.dropWrite_rootInv (s : State) : (s.dropWrite).rootInv = s.rootInv := rfl
@[simp] theorem State.dropWrite_opa (s : State) : (s.dropWrite).opa = s.opa := rfl
@[simp] theorem State.dropWrite_opb (s : State) : (s.dropWrite).opb = s.opb := rfl
@[simp] theorem State.dropWrite_result (s : State) : (s.dropWrite).result = s.result := rfl
@[simp] theorem State.dropWrite_srca (s : State) : (s.dropWrite).srca = s.srca := rfl
@[simp] theorem State.dropWrite_srcb (s : State) : (s.dropWrite).srcb = s.srcb := rfl
@[simp] theorem State.dropWrite_dst (s : State) : (s.dropWrite).dst = s.dst := rfl
@[simp] theorem State.dropWrite_dmem (s : State) : (s.dropWrite).dmem = s.dmem := rfl
@[simp] theorem State.dropWrite_rstN (s : State) : (s.dropWrite).rstN = s.rstN := rfl
@[simp] theorem State.dropWrite_response (s : State) : (s.dropWrite).response = s.response := rfl
@[simp] theorem State.dropWrite_draws (s : State) : (s.dropWrite).draws = s.draws := rfl
@[simp] theorem State.dropWrite_inputs (s : State) : (s.dropWrite).inputs = s.inputs := rfl

/-! ### `State.resetAction` -/

@[simp] theorem State.resetAction_params (s : State) : s.resetAction.params = s.params := rfl
@[simp] theorem State.resetAction_ie (s : State) : s.resetAction.ie = false := rfl
@[simp] theorem State.resetAction_status (s : State) : s.resetAction.status = Status.reset := rfl
@[simp] theorem State.resetAction_cmd (s : State) : s.resetAction.cmd = 0#32 := rfl
@[simp] theorem State.resetAction_mod (s : State) : s.resetAction.mod = 0#32 := rfl
@[simp] theorem State.resetAction_root (s : State) : s.resetAction.root = 0#32 := rfl
@[simp] theorem State.resetAction_rootInv (s : State) : s.resetAction.rootInv = 0#32 := rfl
@[simp] theorem State.resetAction_opa (s : State) : s.resetAction.opa = 0#32 := rfl
@[simp] theorem State.resetAction_opb (s : State) : s.resetAction.opb = 0#32 := rfl
@[simp] theorem State.resetAction_result (s : State) : s.resetAction.result = 0#32 := rfl
@[simp] theorem State.resetAction_srca (s : State) : s.resetAction.srca = 0#16 := rfl
@[simp] theorem State.resetAction_srcb (s : State) : s.resetAction.srcb = 0#16 := rfl
@[simp] theorem State.resetAction_dst (s : State) : s.resetAction.dst = 0#16 := rfl
@[simp] theorem State.resetAction_dmem (s : State) : s.resetAction.dmem = [] := rfl
@[simp] theorem State.resetAction_rstN (s : State) : s.resetAction.rstN = s.rstN := rfl
@[simp] theorem State.resetAction_response (s : State) : s.resetAction.response = s.response := rfl
@[simp] theorem State.resetAction_draws (s : State) : s.resetAction.draws = s.draws := rfl
@[simp] theorem State.resetAction_inputs (s : State) : s.resetAction.inputs = s.inputs := rfl

/-! ### STATUS -/

@[simp] theorem Status.issued_busy (st : Status) : (st.issued).busy = true := rfl
@[simp] theorem Status.issued_done (st : Status) : (st.issued).done = false := rfl
@[simp] theorem Status.issued_err (st : Status) : (st.issued).err = false := rfl
@[simp] theorem Status.issued_haz (st : Status) : (st.issued).haz = st.haz := rfl
@[simp] theorem Status.issued_ecode (st : Status) : (st.issued).ecode = 0#4 := rfl

@[simp] theorem Status.completedOk_busy (st : Status) : (st.completedOk).busy = false := rfl
@[simp] theorem Status.completedOk_done (st : Status) : (st.completedOk).done = true := rfl
@[simp] theorem Status.completedOk_err (st : Status) : (st.completedOk).err = false := rfl
@[simp] theorem Status.completedOk_haz (st : Status) : (st.completedOk).haz = st.haz := rfl
@[simp] theorem Status.completedOk_ecode (st : Status) : (st.completedOk).ecode = 0#4 := rfl

@[simp] theorem Status.completedError_busy (st : Status) (c : CmdError) : (st.completedError c).busy = false := rfl
@[simp] theorem Status.completedError_done (st : Status) (c : CmdError) : (st.completedError c).done = true := rfl
@[simp] theorem Status.completedError_err (st : Status) (c : CmdError) : (st.completedError c).err = true := rfl
@[simp] theorem Status.completedError_haz (st : Status) (c : CmdError) : (st.completedError c).haz = st.haz := rfl
@[simp] theorem Status.completedError_ecode (st : Status) (c : CmdError) : (st.completedError c).ecode = c.code := rfl

@[simp] theorem Status.withHazard_busy (st : Status) : (st.withHazard).busy = st.busy := rfl
@[simp] theorem Status.withHazard_done (st : Status) : (st.withHazard).done = st.done := rfl
@[simp] theorem Status.withHazard_err (st : Status) : (st.withHazard).err = st.err := rfl
@[simp] theorem Status.withHazard_haz (st : Status) : (st.withHazard).haz = true := rfl
@[simp] theorem Status.withHazard_ecode (st : Status) : (st.withHazard).ecode = st.ecode := rfl

end Sys2Proof.Machine
end

