-- ==== Sys2Proof/Laws/Memory.lean ====
section
/-! SUPPORT. The laws of the data memory: a read after a write, writes of a list, the canonical form, and
that memories in canonical form with the same words are equal. -/

namespace Sys2Proof.Machine

@[simp] theorem Memory.lookup_nil (e : Nat) : Memory.lookup [] e = none := rfl

theorem Memory.lookup_cons (a : Nat) (w : Word) (m : Memory) (e : Nat) :
    Memory.lookup ((a, w) :: m) e = if a = e then some w else Memory.lookup m e := rfl

/-- A read after a write: the written word at its own address, the former word everywhere else. -/
theorem Memory.lookup_write (m : Memory) (e : Nat) (v : Word) (x : Nat) :
    (m.write e v).lookup x = if x = e then some v else m.lookup x := by
  induction m with
  | nil => simp only [Memory.write, Memory.lookup, eq_comm]
  | cons c rest ih =>
    obtain ⟨a, w⟩ := c
    simp only [Memory.write]
    split
    · simp only [Memory.lookup_cons, eq_comm]
    · split
      · subst e
        simp only [Memory.lookup_cons]
        by_cases h : a = x
        · simp [h]
        · simp [h, Ne.symm h]
      · simp only [Memory.lookup_cons, ih]
        by_cases h : a = x
        · have : x ≠ e := by omega
          simp [h, this]
        · simp [h]

@[simp] theorem Memory.lookup_write_same (m : Memory) (e : Nat) (v : Word) :
    (m.write e v).lookup e = some v := by simp [Memory.lookup_write]

theorem Memory.lookup_write_other (m : Memory) {e x : Nat} (v : Word) (h : x ≠ e) :
    (m.write e v).lookup x = m.lookup x := by simp [Memory.lookup_write, h]

@[simp] theorem Memory.writeList_nil (m : Memory) (e : Nat) : m.writeList e [] = m := rfl

/-- What a list written at `e` leaves at every address: its own element inside its region, the former word
outside. -/
theorem Memory.lookup_writeList (l : List Nat) (m : Memory) (e x : Nat) :
    (m.writeList e l).lookup x =
      if e ≤ x ∧ x < e + l.length then (l[x - e]?).map (BitVec.ofNat 32) else m.lookup x := by
  induction l generalizing m e with
  | nil =>
    rw [if_neg (by simp)]
    rfl
  | cons v rest ih =>
    simp only [Memory.writeList, ih, List.length_cons]
    by_cases h : x = e
    · subst h
      simp
    · by_cases hin : e + 1 ≤ x ∧ x < e + 1 + rest.length
      · have h2 : e ≤ x ∧ x < e + (rest.length + 1) := by omega
        have h3 : x - e = (x - (e + 1)) + 1 := by omega
        simp [hin, h2, h3]
      · have h2 : ¬ (e ≤ x ∧ x < e + (rest.length + 1)) := by omega
        rw [if_neg hin, if_neg h2, Memory.lookup_write_other _ _ h]

theorem Memory.lookup_writeList_outside (l : List Nat) (m : Memory) {e x : Nat}
    (h : x < e ∨ e + l.length ≤ x) : (m.writeList e l).lookup x = m.lookup x := by
  rw [Memory.lookup_writeList, if_neg (by omega)]

theorem Memory.lookup_writeList_inside (l : List Nat) (m : Memory) (e : Nat) {i : Nat} (h : i < l.length) :
    (m.writeList e l).lookup (e + i) = (l[i]?).map (BitVec.ofNat 32) := by
  rw [Memory.lookup_writeList, if_pos (by omega), Nat.add_sub_cancel_left]

/-! ### The canonical form -/

/-- The form in one sentence: the first address is below all others, and the rest is in the form. -/
theorem Memory.wf_cons (a : Nat) (w : Word) (m : Memory) :
    Memory.wf ((a, w) :: m) = true ↔ (∀ c ∈ m, a < c.1) ∧ m.wf = true := by
  induction m generalizing a w with
  | nil => simp [Memory.wf]
  | cons c rest ih =>
    obtain ⟨b, u⟩ := c
    simp only [Memory.wf, Bool.and_eq_true, decide_eq_true_eq, ih, List.mem_cons, forall_eq_or_imp]
    constructor
    · rintro ⟨hab, hb, hr⟩
      exact ⟨⟨hab, fun c hc => hab.trans (hb c hc)⟩, hb, hr⟩
    · rintro ⟨⟨hab, -⟩, hb, hr⟩
      exact ⟨hab, hb, hr⟩

theorem Memory.mem_write {m : Memory} {e : Nat} {v : Word} {c : Nat × Word} (h : c ∈ m.write e v) :
    c = (e, v) ∨ c ∈ m := by
  induction m with
  | nil => simpa [Memory.write] using h
  | cons d rest ih =>
    obtain ⟨a, w⟩ := d
    simp only [Memory.write] at h
    split at h
    · simpa using h
    · split at h
      · rcases List.mem_cons.1 h with h | h
        · exact .inl h
        · exact .inr (List.mem_cons_of_mem _ h)
      · rcases List.mem_cons.1 h with h | h
        · exact .inr (by simp [h])
        · exact (ih h).imp id (List.mem_cons_of_mem _)

/-- A write keeps the canonical form. -/
theorem Memory.wf_write {m : Memory} (e : Nat) (v : Word) (h : m.wf = true) : (m.write e v).wf = true := by
  induction m with
  | nil => rfl
  | cons d rest ih =>
    obtain ⟨a, w⟩ := d
    have ⟨hlt, hrest⟩ := (Memory.wf_cons a w rest).1 h
    simp only [Memory.write]
    split
    · rename_i hea
      refine (Memory.wf_cons ..).2 ⟨?_, h⟩
      intro c hc
      rcases List.mem_cons.1 hc with rfl | hc
      · exact hea
      · exact hea.trans (hlt c hc)
    · split
      · rename_i heq
        exact (Memory.wf_cons ..).2 ⟨heq ▸ hlt, hrest⟩
      · refine (Memory.wf_cons ..).2 ⟨?_, ih hrest⟩
        intro c hc
        rcases Memory.mem_write hc with rfl | hc
        · show a < e
          omega
        · exact hlt c hc

/-- Writing a list keeps the canonical form. -/
theorem Memory.wf_writeList (l : List Nat) {m : Memory} (e : Nat) (h : m.wf = true) :
    (m.writeList e l).wf = true := by
  induction l generalizing m e with
  | nil => exact h
  | cons v rest ih => exact ih (e + 1) (Memory.wf_write e _ h)

theorem Memory.lookup_eq_none_of_lt {m : Memory} {e : Nat} (h : ∀ c ∈ m, e < c.1) : m.lookup e = none := by
  induction m with
  | nil => rfl
  | cons d rest ih =>
    obtain ⟨a, w⟩ := d
    have ha : e < a := h (a, w) (by simp)
    rw [Memory.lookup_cons, if_neg (by omega)]
    exact ih fun c hc => h c (List.mem_cons_of_mem _ hc)

/-- The form is canonical: two memories in it with the same word at every address are the same data. -/
theorem Memory.ext_of_lookup {m m' : Memory} (h : m.wf = true) (h' : m'.wf = true)
    (heq : ∀ e, m.lookup e = m'.lookup e) : m = m' := by
  induction m generalizing m' with
  | nil =>
    cases m' with
    | nil => rfl
    | cons d rest =>
      obtain ⟨b, u⟩ := d
      have := heq b
      simp [Memory.lookup_cons] at this
  | cons d rest ih =>
    obtain ⟨a, w⟩ := d
    have ⟨hlt, hrest⟩ := (Memory.wf_cons a w rest).1 h
    cases m' with
    | nil =>
      have := heq a
      simp [Memory.lookup_cons] at this
    | cons d' rest' =>
      obtain ⟨b, u⟩ := d'
      have ⟨hlt', hrest'⟩ := (Memory.wf_cons b u rest').1 h'
      have hab : a = b := by
        by_contra hne
        rcases Nat.lt_or_gt_of_ne hne with hl | hl
        · have h1 := heq a
          rw [Memory.lookup_cons, if_pos rfl, Memory.lookup_cons, if_neg (Ne.symm hne),
            Memory.lookup_eq_none_of_lt fun c hc => hl.trans (hlt' c hc)] at h1
          cases h1
        · have h1 := heq b
          rw [Memory.lookup_cons, if_neg hne, Memory.lookup_cons, if_pos rfl,
            Memory.lookup_eq_none_of_lt fun c hc => hl.trans (hlt c hc)] at h1
          cases h1
      subst hab
      have hw : w = u := by
        have h1 := heq a
        simpa [Memory.lookup_cons] using h1
      subst hw
      congr 1
      refine ih hrest hrest' fun e => ?_
      by_cases he : a = e
      · subst he
        rw [Memory.lookup_eq_none_of_lt hlt, Memory.lookup_eq_none_of_lt hlt']
      · have h1 := heq e
        simpa [Memory.lookup_cons, he] using h1

/-! ### Reads -/

theorem State.readWord_of_lookup {s : State} {e : Nat} {w : Word} (h : s.dmem.lookup e = some w)
    (draw : Nat) : s.readWord draw e = w := by simp [State.readWord, h]

theorem elemBits_toNat (p : Params) (v : Word) : (elemBits p v).toNat = v.toNat % 2 ^ p.elemW := by
  have : v.toNat % 2 ^ p.elemW ≤ v.toNat := Nat.mod_le ..
  have := v.isLt
  simp only [elemBits, BitVec.toNat_ofNat]
  omega

theorem elemBits_lt (p : Params) (v : Word) : (elemBits p v).toNat < 2 ^ p.elemW := by
  rw [elemBits_toNat]
  exact Nat.mod_lt _ (Nat.two_pow_pos _)

@[simp] theorem State.memRead_length (s : State) (draw e m : Nat) : (s.memRead draw e m).length = m := by
  simp [State.memRead]

theorem State.memRead_getD (s : State) (draw e m : Nat) {i : Nat} (h : i < m) :
    (s.memRead draw e m).getD i 0 = (s.readWord draw (e + i)).toNat := by
  simp [State.memRead, List.getD, h]

/-- A word read is an ELEM_W-bit value if every word of DMEM is. -/
theorem State.readWord_lt {s : State} (draw e : Nat)
    (h : ∀ e w, s.dmem.lookup e = some w → w.toNat < 2 ^ s.params.elemW) :
    (s.readWord draw e).toNat < 2 ^ s.params.elemW := by
  unfold State.readWord
  split
  · exact h _ _ ‹_›
  · exact elemBits_lt ..

end Sys2Proof.Machine
end

