-- ==== Sys2Proof/Laws/Scalar.lean ====
section
/-! SUPPORT. The shared functions of 40_modular_arithmetic R100: binary exponentiation computes the exact
residue, and every result is a residue. -/

namespace Sys2Proof.Machine

theorem modAdd_lt (a b : Nat) {p : Nat} (hp : 0 < p) : modAdd a b p < p := Nat.mod_lt _ hp

theorem modMul_lt (a b : Nat) {p : Nat} (hp : 0 < p) : modMul a b p < p := Nat.mod_lt _ hp

/-- The floor modulo as an integer. -/
theorem modSub_cast (a b : Nat) {p : Nat} (hp : 0 < p) :
    (modSub a b p : Int) = ((a : Int) - b) % p := by
  have hp' : (p : Int) ≠ 0 := by omega
  exact Int.toNat_of_nonneg (Int.emod_nonneg _ hp')

theorem modSub_lt (a b : Nat) {p : Nat} (hp : 0 < p) : modSub a b p < p := by
  have h := Int.emod_lt_of_pos ((a : Int) - b) (b := (p : Int)) (by omega)
  have := modSub_cast a b hp
  omega

/-- The floor modulo as a residue class. -/
theorem modSub_zmod (a b p : Nat) (hp : 0 < p) : (modSub a b p : ZMod p) = (a : ZMod p) - b := by
  have h : ((modSub a b p : Int) : ZMod p) = (((a : Int) - b) % p : Int) := by rw [modSub_cast a b hp]
  rw [ZMod.intCast_mod] at h
  exact_mod_cast h

theorem modPowBits_eq (p bits : Nat) (b e : Nat) (h : e < 2 ^ bits) : modPowBits p bits b e = b ^ e % p := by
  induction bits generalizing b e with
  | zero =>
    have : e = 0 := by omega
    subst this
    simp [modPowBits]
  | succ bits ih =>
    have hhalf : e / 2 < 2 ^ bits := by rw [pow_succ] at h; omega
    have hsq : (b * b % p) ^ (e / 2) % p = b ^ (2 * (e / 2)) % p := by
      rw [← Nat.pow_mod, pow_mul, pow_two]
    simp only [modPowBits, ih _ _ hhalf, hsq]
    have he := Nat.div_add_mod e 2
    split
    · rename_i hodd
      rw [hodd] at he
      rw [Nat.mul_mod, Nat.mod_mod, ← Nat.mul_mod]
      conv_rhs => rw [← he, pow_succ, Nat.mul_comm]
    · rename_i heven
      have : e % 2 = 0 := by omega
      rw [this, Nat.add_zero] at he
      rw [he]

/-- `MODPOW(b, e, p) = (b ^ e) mod p` (R100). -/
theorem modPow_eq (b e p : Nat) : modPow b e p = b ^ e % p :=
  modPowBits_eq _ _ _ _ Nat.lt_log2_self

theorem modPow_lt (b e : Nat) {p : Nat} (hp : 0 < p) : modPow b e p < p := by
  rw [modPow_eq]
  exact Nat.mod_lt _ hp

theorem modInv_eq (a p : Nat) : modInv a p = a ^ (p - 2) % p := modPow_eq ..

theorem modInv_lt (a : Nat) {p : Nat} (hp : 0 < p) : modInv a p < p := modPow_lt _ _ hp

end Sys2Proof.Machine
end

