-- ==== Sys2Proof/Laws/Ntt.lean ====
section
/-! SUPPORT. The pieces of NTT_REC (41_ntt_1d R120): lengths, elements and ranges of the even and odd halves,
the twiddles, the butterflies and the transforms. -/

namespace Sys2Proof.Machine

/-! ### Even and odd elements -/

theorem evens_length (a : List Nat) {n : Nat} (h : a.length = 2 * n) : (evens a).length = n := by
  induction n generalizing a with
  | zero => cases a <;> simp_all [evens]
  | succ n ih =>
    match a, h with
    | x :: y :: rest, h => simp only [evens, List.length_cons] at h ⊢; rw [ih rest (by omega)]

theorem odds_length (a : List Nat) {n : Nat} (h : a.length = 2 * n) : (odds a).length = n := by
  induction n generalizing a with
  | zero => cases a <;> simp_all [odds]
  | succ n ih =>
    match a, h with
    | x :: y :: rest, h => simp only [odds, List.length_cons] at h ⊢; rw [ih rest (by omega)]

theorem evens_getD (a : List Nat) (i : Nat) : (evens a).getD i 0 = a.getD (2 * i) 0 := by
  induction a using evens.induct generalizing i with
  | case1 => simp [evens]
  | case2 x => cases i <;> simp [evens, Nat.mul_add]
  | case3 x y rest ih =>
    cases i with
    | zero => simp [evens]
    | succ i => simpa [evens, Nat.mul_add] using ih i

theorem odds_getD (a : List Nat) (i : Nat) : (odds a).getD i 0 = a.getD (2 * i + 1) 0 := by
  induction a using odds.induct generalizing i with
  | case1 => simp [odds]
  | case2 x => simp [odds]
  | case3 x y rest ih =>
    cases i with
    | zero => simp [odds]
    | succ i => simpa [odds, Nat.mul_add] using ih i

theorem mem_of_mem_evens {a : List Nat} {x : Nat} (h : x ∈ evens a) : x ∈ a := by
  induction a using evens.induct with
  | case1 => exact h
  | case2 y => exact h
  | case3 y z rest ih =>
    rcases List.mem_cons.1 h with rfl | h
    · simp
    · simp [ih h]

theorem mem_of_mem_odds {a : List Nat} {x : Nat} (h : x ∈ odds a) : x ∈ a := by
  induction a using odds.induct with
  | case1 => exact h
  | case2 y => simp [odds] at h
  | case3 y z rest ih =>
    rcases List.mem_cons.1 h with rfl | h
    · simp
    · simp [ih h]

/-! ### Twiddles and butterflies -/

@[simp] theorem twiddles_length (p w m t : Nat) : (twiddles p w m t).length = m := by
  induction m generalizing t with
  | zero => rfl
  | succ m ih => simp [twiddles, ih]

/-- Twiddle i is congruent to t * w^i (R121). -/
theorem twiddles_getD_modEq (p w m t : Nat) {i : Nat} (h : i < m) :
    (twiddles p w m t).getD i 0 ≡ t * w ^ i [MOD p] := by
  induction m generalizing t i with
  | zero => omega
  | succ m ih =>
    cases i with
    | zero => simpa [twiddles] using Nat.ModEq.refl _
    | succ i =>
      have h1 : (twiddles p w (m + 1) t).getD (i + 1) 0 = (twiddles p w m (t * w % p)).getD i 0 := by
        simp [twiddles]
      rw [h1, pow_succ', ← mul_assoc]
      exact (ih (t * w % p) (by omega)).trans ((Nat.mod_modEq _ _).mul_right _)

theorem butterflies_length (p : Nat) (ts e o : List Nat) {m : Nat} (ht : ts.length = m) (he : e.length = m)
    (ho : o.length = m) : (butterflies p ts e o).length = 2 * m := by
  simp [butterflies, ht, he, ho]
  omega

/-- The first half of the combine step: `(E[i] + t*O[i]) mod p`. -/
theorem butterflies_getElem_low (p : Nat) (ts e o : List Nat) {m i : Nat} (ht : ts.length = m)
    (he : e.length = m) (ho : o.length = m) (h : i < m) :
    (butterflies p ts e o)[i]? = some ((e.getD i 0 + ts.getD i 0 * o.getD i 0) % p) := by
  subst ht
  have hlen : i < (List.zipWith (fun x y => (x + y) % p) e (List.zipWith (· * ·) ts o)).length := by
    simp [he, ho, h]
  rw [butterflies, List.getElem?_append_left hlen]
  simp [he, ho, h]

/-- The second half of the combine step: `(E[i] - t*O[i]) mod p`. -/
theorem butterflies_getElem_high (p : Nat) (ts e o : List Nat) {m i : Nat} (ht : ts.length = m)
    (he : e.length = m) (ho : o.length = m) (h : i < m) :
    (butterflies p ts e o)[i + m]? = some (modSub (e.getD i 0) (ts.getD i 0 * o.getD i 0) p) := by
  subst ht
  have hlen : (List.zipWith (fun x y => (x + y) % p) e (List.zipWith (· * ·) ts o)).length = ts.length := by
    simp [he, ho]
  rw [butterflies, List.getElem?_append_right (by omega), hlen, Nat.add_sub_cancel]
  simp [he, ho, h]

theorem exists_of_mem_zipWith {f : Nat → Nat → Nat} {l l' : List Nat} {x : Nat}
    (h : x ∈ List.zipWith f l l') : ∃ y ∈ l, ∃ z ∈ l', x = f y z := by
  obtain ⟨i, hi, rfl⟩ := List.mem_iff_getElem.1 h
  simp only [List.length_zipWith, Nat.lt_min] at hi
  exact ⟨_, List.getElem_mem hi.1, _, List.getElem_mem hi.2, by simp⟩

theorem mem_butterflies_lt {p : Nat} (hp : 0 < p) (ts e o : List Nat) {x : Nat}
    (h : x ∈ butterflies p ts e o) : x < p := by
  rcases List.mem_append.1 h with h | h
  · obtain ⟨y, -, z, -, rfl⟩ := exists_of_mem_zipWith h
    exact Nat.mod_lt _ hp
  · obtain ⟨y, -, z, -, rfl⟩ := exists_of_mem_zipWith h
    exact modSub_lt _ _ hp

/-! ### The transforms -/

@[simp] theorem nttRec_zero (a : List Nat) (p w : Nat) : nttRec 0 a p w = a := rfl

theorem nttRec_succ (k : Nat) (a : List Nat) (p w : Nat) :
    nttRec (k + 1) a p w = butterflies p (twiddles p w (2 ^ k) 1) (nttRec k (evens a) p (w * w % p))
      (nttRec k (odds a) p (w * w % p)) := rfl

theorem nttRec_length {k : Nat} {a : List Nat} (p w : Nat) (h : a.length = 2 ^ k) :
    (nttRec k a p w).length = 2 ^ k := by
  induction k generalizing a w with
  | zero => simpa using h
  | succ k ih =>
    have h2 : a.length = 2 * 2 ^ k := by rw [h, pow_succ]; omega
    rw [nttRec_succ, butterflies_length p _ _ _ (twiddles_length ..) (ih _ (evens_length a h2))
      (ih _ (odds_length a h2)), pow_succ]
    omega

/-- Every output of a level of length at least 2 is a residue; a list of length 1 is copied (R120, R121). -/
theorem nttRec_lt {k : Nat} {a : List Nat} {p w x bound : Nat} (hp : 0 < p) (hb : p ≤ bound)
    (ha : ∀ y ∈ a, y < bound) (hx : x ∈ nttRec k a p w) : x < bound := by
  cases k with
  | zero => exact ha x hx
  | succ k => exact (mem_butterflies_lt hp _ _ _ (nttRec_succ k a p w ▸ hx)).trans_le hb

theorem inttFn_length {k : Nat} {y : List Nat} (p w : Nat) (h : y.length = 2 ^ k) :
    (inttFn k y p w).length = 2 ^ k := by
  simp [inttFn, nttRec_length p w h]

theorem inttFn_lt {k : Nat} {y : List Nat} {p w x : Nat} (hp : 0 < p) (hx : x ∈ inttFn k y p w) : x < p := by
  simp only [inttFn, List.mem_map] at hx
  obtain ⟨z, -, rfl⟩ := hx
  exact Nat.mod_lt _ hp

end Sys2Proof.Machine
end

