-- ==== Sys2Proof/Laws/Matrix.lean ====
section
/-! SUPPORT. Matrices as lists of rows (00_scope R13): the elements and the shape of a built matrix, the
row-major layout, and the shapes and ranges of the 2D functions. -/

namespace Sys2Proof.Machine

theorem Mat.getD_build (n : Nat) (f : Nat → Nat → Nat) {r : Nat} (hr : r < n) :
    (Mat.build n f).getD r [] = (List.range n).map (f r) := by
  simp [Mat.build, List.getD, hr]

@[simp] theorem Mat.entry_build (n : Nat) (f : Nat → Nat → Nat) {r c : Nat} (hr : r < n) (hc : c < n) :
    (Mat.build n f).entry r c = f r c := by
  rw [Mat.entry, Mat.getD_build n f hr]
  simp [List.getD, hc]

theorem Mat.square_build (n : Nat) (f : Nat → Nat → Nat) : (Mat.build n f).Square n := by
  constructor
  · simp [Mat.build]
  · intro row h
    simp only [Mat.build, List.mem_map] at h
    obtain ⟨r, -, rfl⟩ := h
    simp

/-- Two n by n matrices with the same elements are equal. -/
theorem Mat.ext_of_entry {n : Nat} {M N : Mat} (hM : M.Square n) (hN : N.Square n)
    (h : ∀ r < n, ∀ c < n, M.entry r c = N.entry r c) : M = N := by
  refine List.ext_getElem (hM.1.trans hN.1.symm) fun r h1 h2 => ?_
  have hr : r < n := hM.1 ▸ h1
  have hlM := hM.2 _ (List.getElem_mem h1)
  have hlN := hN.2 _ (List.getElem_mem h2)
  refine List.ext_getElem (hlM.trans hlN.symm) fun c h3 h4 => ?_
  have := h r hr c (hlM ▸ h3)
  simpa [Mat.entry, List.getD, h1, h2, h3, h4] using this

/-- A square matrix is the matrix built of its elements. -/
theorem Mat.build_entry {n : Nat} {M : Mat} (h : M.Square n) : Mat.build n M.entry = M :=
  Mat.ext_of_entry (Mat.square_build n _) h fun r hr c hc => Mat.entry_build n _ hr hc

theorem Mat.entry_congr_build {n : Nat} {f g : Nat → Nat → Nat} (h : ∀ r, r < n → ∀ c, c < n → f r c = g r c) :
    Mat.build n f = Mat.build n g :=
  Mat.ext_of_entry (Mat.square_build n _) (Mat.square_build n _) fun r hr c hc => by
    rw [Mat.entry_build n _ hr hc, Mat.entry_build n _ hr hc, h r hr c hc]

theorem Mat.mem_build {n : Nat} {f : Nat → Nat → Nat} {row : List Nat} {x : Nat} (hrow : row ∈ Mat.build n f)
    (hx : x ∈ row) : ∃ r < n, ∃ c < n, x = f r c := by
  simp only [Mat.build, List.mem_map, List.mem_range] at hrow
  obtain ⟨r, hr, rfl⟩ := hrow
  simp only [List.mem_map, List.mem_range] at hx
  obtain ⟨c, hc, rfl⟩ := hx
  exact ⟨r, hr, c, hc, rfl⟩

/-! ### Row-major layout -/

theorem Mat.rowMajor_length {n : Nat} {M : Mat} (h : M.Square n) : M.rowMajor.length = n * n := by
  have hsum : (M.map List.length) = List.replicate n n := by
    rw [List.eq_replicate_iff]
    refine ⟨by simp [h.1], ?_⟩
    simpa using h.2
  simp [Mat.rowMajor, List.length_flatten, hsum]

theorem getElem?_flatten_uniform {n : Nat} (M : List (List Nat)) (h : ∀ row ∈ M, row.length = n) {r c : Nat}
    (hc : c < n) : M.flatten[r * n + c]? = (M.getD r [])[c]? := by
  induction M generalizing r with
  | nil => simp
  | cons row rest ih =>
    have hrow : row.length = n := h row (by simp)
    cases r with
    | zero => simp [List.getElem?_append_left, hrow, hc]
    | succ r =>
      have hidx : (r + 1) * n + c = n + (r * n + c) := by ring
      rw [List.flatten_cons, hidx, List.getElem?_append_right (by omega), hrow, Nat.add_sub_cancel_left,
        ih fun x hx => h x (by simp [hx])]
      simp

/-- Element r*n + c of the row-major list is M[r][c] (20_memory R59). -/
theorem Mat.rowMajor_getElem {n : Nat} {M : Mat} (h : M.Square n) {r c : Nat} (hr : r < n) (hc : c < n) :
    M.rowMajor[r * n + c]? = some (M.entry r c) := by
  have hr' : r < M.length := h.1 ▸ hr
  have hrow : (M.getD r []).length = n := by
    rw [List.getD_eq_getElem _ _ hr']
    exact h.2 _ (List.getElem_mem hr')
  have hc' : c < (M.getD r []).length := hrow ▸ hc
  rw [Mat.rowMajor, getElem?_flatten_uniform M h.2 hc, Mat.entry, List.getElem?_eq_getElem hc',
    List.getD_eq_getElem _ _ hc']

theorem Mat.rowMajor_build (n : Nat) (f : Nat → Nat → Nat) {r c : Nat} (hr : r < n) (hc : c < n) :
    (Mat.build n f).rowMajor[r * n + c]? = some (f r c) := by
  rw [Mat.rowMajor_getElem (Mat.square_build n f) hr hc, Mat.entry_build n f hr hc]

/-- The matrix in a region is the one the region's words spell in row-major order (20_memory R59). -/
theorem Mat.ofRowMajor_memRead (s : State) (draw e n : Nat) :
    Mat.ofRowMajor n (s.memRead draw e (n * n)) = s.matrixAt draw e n := by
  refine Mat.entry_congr_build fun r hr c hc => ?_
  have : r * n + c < n * n := by nlinarith
  rw [State.memRead_getD s draw e _ this, Nat.add_assoc]

/-! ### Shapes and ranges of the 2D functions -/

theorem Mat.square_transpose (n : Nat) (M : Mat) : (Mat.transpose n M).Square n := Mat.square_build ..

theorem Mat.entry_transpose (n : Nat) (M : Mat) {r c : Nat} (hr : r < n) (hc : c < n) :
    (Mat.transpose n M).entry r c = M.entry c r := Mat.entry_build n _ hr hc

theorem rowsFwd_square {k : Nat} {M : Mat} (p w : Nat) (h : M.Square (2 ^ k)) :
    (rowsFwd k M p w).Square (2 ^ k) := by
  refine ⟨by simp [rowsFwd, h.1], ?_⟩
  intro row hrow
  simp only [rowsFwd, List.mem_map] at hrow
  obtain ⟨r, hr, rfl⟩ := hrow
  exact nttRec_length p w (h.2 r hr)

theorem rowsInv_square {k : Nat} {M : Mat} (p w : Nat) (h : M.Square (2 ^ k)) :
    (rowsInv k M p w).Square (2 ^ k) := by
  refine ⟨by simp [rowsInv, h.1], ?_⟩
  intro row hrow
  simp only [rowsInv, List.mem_map] at hrow
  obtain ⟨r, hr, rfl⟩ := hrow
  exact inttFn_length p w (h.2 r hr)

theorem ntt2Fn_square (k : Nat) (M : Mat) (p w : Nat) : (ntt2Fn k M p w).Square (2 ^ k) :=
  Mat.square_transpose ..

theorem intt2Fn_square (k : Nat) (M : Mat) (p w : Nat) : (intt2Fn k M p w).Square (2 ^ k) :=
  rowsInv_square _ _ (Mat.square_transpose ..)

theorem convsFn_square (n : Nat) (A B : Mat) (p : Nat) : (convsFn n A B p).Square n := Mat.square_build ..

theorem convfFn_square (k : Nat) (A B : Mat) (p w wInv : Nat) : (convfFn k A B p w wInv).Square (2 ^ k) :=
  intt2Fn_square ..

/-- Every element of a square matrix is one of its entries, and conversely. -/
theorem Mat.entry_lt {n bound : Nat} {M : Mat} (h : M.Square n) (hb : ∀ row ∈ M, ∀ x ∈ row, x < bound) {r c : Nat}
    (hr : r < n) (hc : c < n) : M.entry r c < bound := by
  have hr' : r < M.length := h.1 ▸ hr
  have hrow := List.getElem_mem hr'
  have hc' : c < (M[r]).length := h.2 _ hrow ▸ hc
  simpa [Mat.entry, List.getD, hr', hc'] using hb _ hrow _ (List.getElem_mem hc')

theorem Mat.transpose_lt {n bound : Nat} {M : Mat} (h : M.Square n) (hb : ∀ row ∈ M, ∀ x ∈ row, x < bound) :
    ∀ row ∈ Mat.transpose n M, ∀ x ∈ row, x < bound := by
  intro row hrow x hx
  obtain ⟨r, hr, c, hc, rfl⟩ := Mat.mem_build hrow hx
  exact Mat.entry_lt h hb hc hr

theorem rowsFwd_lt {k p w bound : Nat} {M : Mat} (hp : 0 < p) (hpb : p ≤ bound)
    (hb : ∀ row ∈ M, ∀ x ∈ row, x < bound) : ∀ row ∈ rowsFwd k M p w, ∀ x ∈ row, x < bound := by
  intro row hrow x hx
  simp only [rowsFwd, List.mem_map] at hrow
  obtain ⟨r, hr, rfl⟩ := hrow
  exact nttRec_lt hp hpb (hb r hr) hx

/-- The outputs of NTT2_FN are below any bound of the modulus and of the inputs. -/
theorem ntt2Fn_lt {k p w bound : Nat} {M : Mat} (hp : 0 < p) (hpb : p ≤ bound) (h : M.Square (2 ^ k))
    (hb : ∀ row ∈ M, ∀ x ∈ row, x < bound) : ∀ row ∈ ntt2Fn k M p w, ∀ x ∈ row, x < bound :=
  Mat.transpose_lt (rowsFwd_square _ _ (Mat.square_transpose ..))
    (rowsFwd_lt hp hpb (Mat.transpose_lt (rowsFwd_square _ _ h) (rowsFwd_lt hp hpb hb)))

theorem intt2Fn_lt {k p w : Nat} {M : Mat} (hp : 0 < p) : ∀ row ∈ intt2Fn k M p w, ∀ x ∈ row, x < p := by
  intro row hrow x hx
  simp only [intt2Fn, rowsInv, List.mem_map] at hrow
  obtain ⟨r, -, rfl⟩ := hrow
  exact inttFn_lt hp hx

end Sys2Proof.Machine
end

