-- ==== Sys2Proof/Laws/Commands.lean ====
section
/-! SUPPORT. The shared completion operations: what `runScalar` and `runVector` do in each case, and the one
inversion lemma of `exec`. -/

namespace Sys2Proof.Machine

/-! ### Checks -/

/-- OVERLAPS is the set meaning of a common address, for regions that are not empty (20_memory R57). -/
theorem meet_iff_overlaps {b₁ b₂ m : Nat} (hm : 0 < m) : Meet b₁ b₂ m ↔ overlaps b₁ m b₂ m := by
  constructor
  · rintro ⟨e, h1, h2, h3, h4⟩
    exact ⟨by omega, by omega⟩
  · rintro ⟨h1, h2⟩
    refine ⟨max b₁ b₂, by omega, by omega, by omega, by omega⟩

theorem VectorForm.words_pos (f : VectorForm) (k : Nat) : 0 < f.words k := by
  unfold VectorForm.words
  split <;> positivity

/-- The scalar check is INVALID_MODULUS exactly when MOD = 0 (60_exceptions R202). -/
theorem State.scalarCheck_zero {s : State} (h : s.mod.toNat = 0) : s.scalarCheck = some .invalidModulus := by
  simp [State.scalarCheck, h]

theorem State.scalarCheck_nonzero {s : State} (h : s.mod.toNat ≠ 0) : s.scalarCheck = none := by
  simp [State.scalarCheck, h]

/-- Every check passes exactly when the command is ready (60_exceptions R207). -/
theorem State.vectorCheck_eq_none_iff (s : State) (f : VectorForm) (k : Nat) :
    s.vectorCheck f k = none ↔ s.Ready f.readsB f.scales k (f.words k) := by
  have hm := f.words_pos k
  unfold State.vectorCheck State.Ready State.RegionsFit State.RegionsApart
  rw [meet_iff_overlaps hm, meet_iff_overlaps hm]
  repeat' split
  all_goals simp_all

/-- Which error each check reports, in order (60_exceptions R207). -/
theorem State.vectorCheck_inOrder (s : State) (f : VectorForm) (k : Nat) :
    (s.mod.toNat = 0 → s.vectorCheck f k = some .invalidModulus) ∧
    (s.mod.toNat ≠ 0 → s.params.logNMax < k → s.vectorCheck f k = some .invalidLength) ∧
    (s.mod.toNat ≠ 0 → k ≤ s.params.logNMax → ¬ s.RegionsFit f.readsB (f.words k) →
      s.vectorCheck f k = some .addrRange) ∧
    (s.mod.toNat ≠ 0 → k ≤ s.params.logNMax → s.RegionsFit f.readsB (f.words k) →
      ¬ s.RegionsApart f.readsB (f.words k) → s.vectorCheck f k = some .overlap) ∧
    (s.mod.toNat ≠ 0 → k ≤ s.params.logNMax → s.RegionsFit f.readsB (f.words k) →
      s.RegionsApart f.readsB (f.words k) → f.scales = true → 2 ^ k % s.mod.toNat = 0 →
      s.vectorCheck f k = some .noInverse) := by
  have hm := f.words_pos k
  unfold State.vectorCheck State.RegionsFit State.RegionsApart
  rw [meet_iff_overlaps hm, meet_iff_overlaps hm]
  refine ⟨?_, ?_, ?_, ?_, ?_⟩
  · intro h
    simp [h]
  · intro h hk
    simp [h, hk]
  · intro h hk hfit
    have : ¬ s.params.logNMax < k := by omega
    simp only [h, this, if_false]
    repeat' split
    all_goals first | rfl | skip
    all_goals simp_all
  · intro h hk hfit hapart
    have : ¬ s.params.logNMax < k := by omega
    simp only [h, this, if_false]
    repeat' split
    all_goals first | rfl | skip
    all_goals simp_all
  · intro h hk hfit hapart hs hn
    have : ¬ s.params.logNMax < k := by omega
    simp only [h, this, if_false]
    repeat' split
    all_goals first | rfl | skip
    all_goals simp_all

/-! ### Completion -/

@[simp] theorem State.runScalar_none (s : State) (v : Nat) : s.runScalar none v = (s.setResult v).completeOk := rfl

@[simp] theorem State.runScalar_some (s : State) (c : CmdError) (v : Nat) :
    s.runScalar (some c) v = s.completeError c := rfl

/-- A vector command whose checks fail changes STATUS alone. -/
theorem State.runVector_failed {s : State} {f : VectorForm} {k : Nat} {c : CmdError}
    (value : List Nat → List Nat → List Nat) (h : s.vectorCheck f k = some c) :
    s.runVector f k value = s.completeError c := by simp [State.runVector, h]

/-- The lists a vector command of form `f` computes its value from: the words of SRCA and, where it reads
SRCB, those of SRCB (30_encoding R77). -/
def State.sourceA (s : State) (f : VectorForm) (k : Nat) : List Nat :=
  s.memRead s.draws s.srca.toNat (f.words k)

/-- See `sourceA`. -/
def State.sourceB (s : State) (f : VectorForm) (k : Nat) : List Nat :=
  if f.readsB then s.memRead (s.draws + 1) s.srcb.toNat (f.words k) else []

/-- A vector command whose checks pass writes its value to the destination region and completes. -/
theorem State.runVector_ready {s : State} {f : VectorForm} {k : Nat}
    (value : List Nat → List Nat → List Nat) (h : s.vectorCheck f k = none) :
    s.runVector f k value =
      ((s.setDmem (s.dmem.writeList s.dst.toNat (value (s.sourceA f k) (s.sourceB f k)))).takeDraws 2).completeOk := by
  simp [State.runVector, h, State.sourceA, State.sourceB]

/-- Everything `runVector` can do: STATUS alone changes, or its value is written to the destination. -/
theorem State.runVector_cases (s : State) (f : VectorForm) (k : Nat) (value : List Nat → List Nat → List Nat) :
    (∃ c, s.vectorCheck f k = some c ∧ s.runVector f k value = s.completeError c) ∨
    (s.vectorCheck f k = none ∧ s.runVector f k value =
      ((s.setDmem (s.dmem.writeList s.dst.toNat (value (s.sourceA f k) (s.sourceB f k)))).takeDraws 2).completeOk) := by
  cases h : s.vectorCheck f k with
  | some c => exact .inl ⟨c, rfl, State.runVector_failed value h⟩
  | none => exact .inr ⟨rfl, State.runVector_ready value h⟩

/-! ### The values of the vector commands: how many words, and how large -/

theorem convsCell_lt (n : Nat) (A Bf : Mat) {p : Nat} (hp : 0 < p) (i j : Nat) : convsCell n A Bf p i j < p := by
  have step : ∀ (g : Nat → Nat → Nat), (∀ acc k, acc < p → g acc k < p) → ∀ (l : List Nat) (acc : Nat),
      acc < p → l.foldl g acc < p := by
    intro g hg l
    induction l with
    | nil => exact fun acc h => h
    | cons x rest ih => exact fun acc h => ih _ (hg acc x h)
  exact step _ (fun acc k h => step _ (fun _ _ _ => Nat.mod_lt _ hp) _ _ h) _ _ hp

theorem convsFn_lt {n p : Nat} {A B : Mat} (hp : 0 < p) : ∀ row ∈ convsFn n A B p, ∀ x ∈ row, x < p := by
  intro row hrow x hx
  obtain ⟨i, -, j, -, rfl⟩ := Mat.mem_build hrow hx
  exact convsCell_lt _ _ _ hp _ _

theorem pmulFn_length {l₁ l₂ : List Nat} {m : Nat} (p : Nat) (h₁ : l₁.length = m) (h₂ : l₂.length = m) :
    (pmulFn l₁ l₂ p).length = m := by simp [pmulFn, h₁, h₂]

theorem pmulFn_lt {l₁ l₂ : List Nat} {p x : Nat} (hp : 0 < p) (h : x ∈ pmulFn l₁ l₂ p) : x < p := by
  obtain ⟨y, -, z, -, rfl⟩ := exists_of_mem_zipWith h
  exact Nat.mod_lt _ hp

theorem Mat.rowMajor_lt {M : Mat} {bound : Nat} (h : ∀ row ∈ M, ∀ x ∈ row, x < bound) :
    ∀ x ∈ M.rowMajor, x < bound := by
  intro x hx
  obtain ⟨row, hrow, hx⟩ := List.mem_flatten.1 hx
  exact h row hrow x hx

theorem State.sourceA_length (s : State) (f : VectorForm) (k : Nat) : (s.sourceA f k).length = f.words k := by
  simp [State.sourceA]

theorem State.sourceB_length {s : State} {f : VectorForm} {k : Nat} (h : f.readsB = true) :
    (s.sourceB f k).length = f.words k := by
  simp [State.sourceB, h]

/-- The matrix of a list has only elements of the list. -/
theorem Mat.ofRowMajor_lt {n bound : Nat} {l : List Nat} (hl : l.length = n * n) (h : ∀ x ∈ l, x < bound) :
    ∀ row ∈ Mat.ofRowMajor n l, ∀ x ∈ row, x < bound := by
  intro row hrow x hx
  obtain ⟨r, hr, c, hc, rfl⟩ := Mat.mem_build hrow hx
  have hidx : r * n + c < l.length := by rw [hl]; nlinarith
  rw [List.getD_eq_getElem _ _ hidx]
  exact h _ (List.getElem_mem hidx)

/-- What a list of values written by a command of form `f` satisfies: one value for each word of the
region, none above a bound of MOD and of the source words (20_memory R56). -/
def State.ValuesFit (s : State) (f : VectorForm) (k : Nat) (vals : List Nat) : Prop :=
  vals.length = f.words k ∧
  ∀ bound, s.mod.toNat ≤ bound → (∀ x ∈ s.sourceA f k, x < bound) → ∀ x ∈ vals, x < bound

theorem State.valuesFit_of_lt {s : State} {f : VectorForm} {k : Nat} {vals : List Nat}
    (hl : vals.length = f.words k) (h : ∀ x ∈ vals, x < s.mod.toNat) : s.ValuesFit f k vals :=
  ⟨hl, fun _ hb _ x hx => (h x hx).trans_le hb⟩

/-! ### The inversion lemma of `exec` -/

/-- The scalar commands (30_encoding R74). -/
def IsScalar (i : Instr) : Prop :=
  ∃ k, i = .madd k ∨ i = .msub k ∨ i = .mmul k ∨ i = .mpow k ∨ i = .minv k

/-- Everything a command can do: fail and change STATUS alone; complete as NOP; write a residue to RESULT;
or write the values of its destination region. -/
def ExecOutcome (i : Instr) (s t : State) : Prop :=
  (∃ c, t = s.completeError c) ∨
  ((∃ k, i = .nop k) ∧ t = s.completeOk) ∨
  (IsScalar i ∧ ∃ v < s.mod.toNat, t = (s.setResult v).completeOk) ∨
  (∃ f vals, vectorForm i = some f ∧ s.vectorCheck f i.logN = none ∧ s.ValuesFit f i.logN vals ∧
    t = ((s.setDmem (s.dmem.writeList s.dst.toNat vals)).takeDraws 2).completeOk)

theorem runScalar_outcome {i : Instr} {s : State} (hi : IsScalar i) {check : Option CmdError} {v : Nat}
    (hv : check = none → v < s.mod.toNat) : ExecOutcome i s (s.runScalar check v) := by
  cases check with
  | some c => exact .inl ⟨c, rfl⟩
  | none => exact .inr (.inr (.inl ⟨hi, v, hv rfl, rfl⟩))

theorem State.mod_pos_of_scalarCheck {s : State} (h : s.scalarCheck = none) : 0 < s.mod.toNat := by
  unfold State.scalarCheck at h
  split at h
  · cases h
  · omega

theorem State.mod_pos_of_inverseCheck {s : State} (h : s.inverseCheck = none) : 0 < s.mod.toNat := by
  unfold State.inverseCheck at h
  split at h
  · cases h
  · exact State.mod_pos_of_scalarCheck ‹_›

theorem runVector_outcome {i : Instr} {s : State} {f : VectorForm} (hf : vectorForm i = some f)
    {value : List Nat → List Nat → List Nat}
    (hv : 0 < s.mod.toNat → s.ValuesFit f i.logN (value (s.sourceA f i.logN) (s.sourceB f i.logN))) :
    ExecOutcome i s (s.runVector f i.logN value) := by
  rcases s.runVector_cases f i.logN value with ⟨c, -, h⟩ | ⟨hc, h⟩
  · exact .inl ⟨c, h⟩
  · have hp : 0 < s.mod.toNat := by
      have := ((State.vectorCheck_eq_none_iff s f i.logN).1 hc).1
      omega
    exact .inr (.inr (.inr ⟨f, _, hf, hc, hv hp, h⟩))

/-- THE INVERSION LEMMA: exec answers a next state, and it is one of these outcomes. -/
theorem exec_outcome (i : Instr) (s : State) : ∃ t, exec i s = .next t ∧ ExecOutcome i s t := by
  cases i with
  | nop k => exact ⟨_, rfl, .inr (.inl ⟨⟨k, rfl⟩, rfl⟩)⟩
  | madd k =>
    exact ⟨_, rfl, runScalar_outcome ⟨k, by simp⟩ fun h => modAdd_lt _ _ (State.mod_pos_of_scalarCheck h)⟩
  | msub k =>
    exact ⟨_, rfl, runScalar_outcome ⟨k, by simp⟩ fun h => modSub_lt _ _ (State.mod_pos_of_scalarCheck h)⟩
  | mmul k =>
    exact ⟨_, rfl, runScalar_outcome ⟨k, by simp⟩ fun h => modMul_lt _ _ (State.mod_pos_of_scalarCheck h)⟩
  | mpow k =>
    exact ⟨_, rfl, runScalar_outcome ⟨k, by simp⟩ fun h => modPow_lt _ _ (State.mod_pos_of_scalarCheck h)⟩
  | minv k =>
    exact ⟨_, rfl, runScalar_outcome ⟨k, by simp⟩ fun h => modInv_lt _ (State.mod_pos_of_inverseCheck h)⟩
  | ntt1 k =>
    refine ⟨_, rfl, runVector_outcome (i := .ntt1 k) rfl fun hp => ?_⟩
    exact ⟨nttRec_length _ _ (s.sourceA_length ..), fun b hb ha x hx => nttRec_lt hp hb ha hx⟩
  | intt1 k =>
    refine ⟨_, rfl, runVector_outcome (i := .intt1 k) rfl fun hp => ?_⟩
    exact State.valuesFit_of_lt (inttFn_length _ _ (s.sourceA_length ..)) fun x hx => inttFn_lt hp hx
  | ntt2 k =>
    refine ⟨_, rfl, runVector_outcome (i := .ntt2 k) rfl fun hp => ?_⟩
    exact ⟨Mat.rowMajor_length (ntt2Fn_square ..), fun b hb ha => Mat.rowMajor_lt
      (ntt2Fn_lt hp hb (Mat.square_build ..) (Mat.ofRowMajor_lt (s.sourceA_length ..) ha))⟩
  | intt2 k =>
    refine ⟨_, rfl, runVector_outcome (i := .intt2 k) rfl fun hp => ?_⟩
    exact State.valuesFit_of_lt (Mat.rowMajor_length (intt2Fn_square ..)) (Mat.rowMajor_lt (intt2Fn_lt hp))
  | pmul1 k =>
    refine ⟨_, rfl, runVector_outcome (i := .pmul1 k) rfl fun hp => ?_⟩
    exact State.valuesFit_of_lt (pmulFn_length _ (s.sourceA_length ..) (State.sourceB_length rfl))
      fun x hx => pmulFn_lt hp hx
  | pmul2 k =>
    refine ⟨_, rfl, runVector_outcome (i := .pmul2 k) rfl fun hp => ?_⟩
    exact State.valuesFit_of_lt (pmulFn_length _ (s.sourceA_length ..) (State.sourceB_length rfl))
      fun x hx => pmulFn_lt hp hx
  | convs k =>
    refine ⟨_, rfl, runVector_outcome (i := .convs k) rfl fun hp => ?_⟩
    exact State.valuesFit_of_lt (Mat.rowMajor_length (convsFn_square ..)) (Mat.rowMajor_lt (convsFn_lt hp))
  | convf k =>
    refine ⟨_, rfl, runVector_outcome (i := .convf k) rfl fun hp => ?_⟩
    exact State.valuesFit_of_lt (Mat.rowMajor_length (convfFn_square ..)) (Mat.rowMajor_lt (intt2Fn_lt hp))

theorem outcome_of_exec {i : Instr} {s t : State} (h : exec i s = .next t) : ExecOutcome i s t := by
  obtain ⟨t', h', ho⟩ := exec_outcome i s
  rw [h] at h'
  cases h'
  exact ho

/-- The completion step answers a next state: an illegal word's, or its command's (10_state R40). -/
theorem State.completeCommand_cases (s : State) : ∃ t, s.completeCommand = .next t ∧
    ((∃ e, decode s.cmd = .error e ∧ t = s.completeError .illegalOp) ∨
      ∃ i, decode s.cmd = .ok i ∧ ExecOutcome i s t) := by
  unfold State.completeCommand
  split
  · exact ⟨_, rfl, .inl ⟨_, ‹_›, rfl⟩⟩
  · obtain ⟨t, ht, ho⟩ := exec_outcome _ s
    exact ⟨t, ht, .inr ⟨_, ‹_›, ho⟩⟩

end Sys2Proof.Machine
end

