-- ==== Sys2Proof/Laws/Completion.lean ====
section
/-! SUPPORT. Lemmas in the vocabulary of Safety.lean: the opcode of a command, the checks of a vector
command in order, what its success writes, and the words of STATUS and PARAM as sums. -/

namespace Sys2Proof.Machine

theorem bv3_toNat_eq_zero : ∀ x : BitVec 3, x.toNat = 0 ↔ x = 0#3 := by decide

theorem bv20_toNat_eq_zero (x : BitVec 20) : x.toNat = 0 ↔ x = 0#20 := by
  rw [← BitVec.toNat_inj]
  simp

/-- A row of the opcode map decodes as 30_encoding R74 says. -/
theorem hasOpcode_of_decodeOpc {opc : Nat} {mk : Nat → Instr} (h : ∀ k, decodeOpc opc k = some (mk k)) :
    HasOpcode opc mk := by
  intro c hc
  simp only [decode, fieldRsv0, fieldRsv1, fieldOpc, fieldLogN, hc, ne_eq, bv3_toNat_eq_zero,
    bv20_toNat_eq_zero]
  split <;> split <;> simp_all

/-- A vector command runs its checks in order (60_exceptions R207). -/
theorem checksInOrder_of_runVector {i : Instr} {s : State} {f : VectorForm} {k : Nat}
    {value : List Nat → List Nat → List Nat} (h : exec i s = .next (s.runVector f k value)) :
    ChecksInOrder i s f.readsB f.scales k (f.words k) := by
  have key : ∀ c : CmdError, s.vectorCheck f k = some c → EndsInError i s c.code.toNat := by
    intro c hc
    rw [EndsInError, h, State.runVector_failed _ hc]
    cases c <;> rfl
  obtain ⟨h1, h2, h3, h4, h5⟩ := s.vectorCheck_inOrder f k
  exact ⟨fun a => key _ (h1 a), fun a b => key _ (h2 a b), fun a b c => key _ (h3 a b c),
    fun a b c d => key _ (h4 a b c d), fun a b c d e g => key _ (h5 a b c d e g)⟩

/-- What a success leaves when `vals` is written to the destination region. -/
theorem writesSequence_of_lt (s : State) {vals : List Nat} (hlt : ∀ x ∈ vals, x < 2 ^ 32) :
    WritesSequence s ((s.setDmem (s.dmem.writeList s.dst.toNat vals)).takeDraws 2).completeOk
      s.dst.toNat vals := by
  refine ⟨fun i hi => ?_, fun e he => ?_, rfl⟩
  · have := hlt _ (List.getElem_mem hi)
    simp only [State.completeOk_dmem, State.takeDraws_dmem, State.setDmem_dmem]
    rw [Memory.lookup_writeList_inside _ _ _ hi, List.getElem?_eq_getElem hi]
    simp only [Option.map_some, BitVec.toNat_ofNat, Nat.mod_eq_of_lt this]
  · simp only [State.completeOk_dmem, State.takeDraws_dmem, State.setDmem_dmem]
    exact Memory.lookup_writeList_outside _ _ he

/-- What a success leaves when the matrix `M` is written to the destination region. -/
theorem writesMatrix_of_lt (s : State) {n : Nat} {M : Mat} (hM : M.Square n)
    (hlt : ∀ row ∈ M, ∀ x ∈ row, x < 2 ^ 32) :
    WritesMatrix s ((s.setDmem (s.dmem.writeList s.dst.toNat M.rowMajor)).takeDraws 2).completeOk
      s.dst.toNat n M := by
  have h := writesSequence_of_lt s (Mat.rowMajor_lt hlt)
  have hl := Mat.rowMajor_length hM
  refine ⟨hM, fun r hr c hc => ?_, fun e he => h.elsewhere e (by rw [hl]; exact he), h.frame⟩
  rw [← Mat.rowMajor_getElem hM hr hc, Nat.add_assoc]
  exact h.written _ (by rw [hl]; nlinarith)

/-- Words all written since reset are read the same in every draw. -/
theorem State.memRead_of_written {s : State} {b m : Nat} (h : s.Written b m) (draw draw' : Nat) :
    s.memRead draw b m = s.memRead draw' b m := by
  refine List.map_congr_left fun x hx => ?_
  obtain ⟨w, hw⟩ := Option.isSome_iff_exists.1 (h x (List.mem_range.1 hx))
  rw [State.readWord_of_lookup hw, State.readWord_of_lookup hw]

theorem Status.toWord_eq (st : Status) : st.toWord = BitVec.ofNat 32
    (st.busy.toNat + 2 * st.done.toNat + 4 * st.err.toNat + 8 * st.haz.toNat + 256 * st.ecode.toNat) := by
  obtain ⟨b, d, e, h, c⟩ := st
  cases b <;> cases d <;> cases e <;> cases h <;> (revert c; decide)

theorem paramWord_eq (p : Params) : paramWord p = BitVec.ofNat 32
    (p.elemW % 64 + 256 * (p.logNMax % 16) + 65536 * (p.memLog2 % 16)) := by
  have h4 : ∀ b : BitVec 4, ∀ c : BitVec 4, 0#12 ++ c ++ 0#4 ++ b ++ 0#2 ++ 0#6 =
      BitVec.ofNat 32 (256 * b.toNat + 65536 * c.toNat) := by decide
  have hor : ∀ (x : BitVec 26) (a : BitVec 6), x ++ a = (x ++ 0#6) + a.setWidth 32 := by
    intro x a
    apply BitVec.eq_of_toNat_eq
    have := a.isLt
    have := x.isLt
    simp only [BitVec.toNat_append, BitVec.toNat_add, BitVec.toNat_setWidth, BitVec.toNat_ofNat,
      Nat.zero_mod, Nat.or_zero]
    rw [← Nat.shiftLeft_add_eq_or_of_lt a.isLt]
    rw [Nat.shiftLeft_eq]
    omega
  rw [paramWord, hor, h4]
  apply BitVec.eq_of_toNat_eq
  simp only [BitVec.toNat_add, BitVec.toNat_setWidth, BitVec.toNat_ofNat]
  omega

end Sys2Proof.Machine
end

