-- ==== Sys2Proof/Laws/Decode.lean ====
section
/-! SUPPORT. The fields of the command word (30_encoding R70): a word is its four fields, and when a decoder
refuses. -/

namespace Sys2Proof

/-- A command word is RSV1, LOGN, RSV0 and OPC put together (R70). -/
theorem word_eq_fields (c : Word) :
    c = c.extractLsb' 12 20 ++ c.extractLsb' 8 4 ++ c.extractLsb' 5 3 ++ c.extractLsb' 0 5 := by
  apply BitVec.eq_of_getLsbD_eq
  intro i hi
  simp only [BitVec.getLsbD_append, BitVec.getLsbD_extractLsb']
  repeat' split
  · simp_all
  · rename_i h5 h3
    simp [h3, show 5 + (i - 5) = i by omega]
  · rename_i h5 h3 h4
    simp [h4, show 8 + (i - 5 - 3) = i by omega]
  · have h20 : i - 5 - 3 - 4 < 20 := by omega
    simp [h20, show 12 + (i - 5 - 3 - 4) = i by omega]

/-- The decoder refuses a word with a reserved bit set by that name, whatever its OPC is (R73). -/
theorem decode_reserved {c : Word} (h : fieldRsv0 c ≠ 0 ∨ fieldRsv1 c ≠ 0) :
    decode c = .error .reservedBits := by
  unfold decode
  rw [if_pos h]

/-- With the reserved bits 0, the decoder goes by OPC and LOGN (R78). -/
theorem decode_unreserved {c : Word} (h0 : fieldRsv0 c = 0) (h1 : fieldRsv1 c = 0) :
    decode c = (match decodeOpc (fieldOpc c) (fieldLogN c) with
      | none => .error .unassignedOpcode
      | some i => .ok i) := by
  unfold decode
  exact if_neg (by simp [h0, h1])

/-- The opcode map names its own OPC and LOGN (R74). -/
theorem decodeOpc_eq_some {opc k : Nat} {i : Instr} (h : decodeOpc opc k = some i) :
    i.opcode = opc ∧ i.logN = k := by
  unfold decodeOpc at h
  split at h <;> cases h <;> exact ⟨rfl, rfl⟩

/-- The unassigned OPC values (R75). -/
theorem decodeOpc_eq_none {opc k : Nat} : decodeOpc opc k = none ↔ opc = 0x06 ∨ opc = 0x07 ∨ 0x10 ≤ opc := by
  unfold decodeOpc
  split <;> simp_all
  omega

end Sys2Proof
end

