-- ==== Sys2Proof/Laws/PerInstr.lean ====
section
/-! SUPPORT. Facts proved one constructor of Instr at a time: the fields of an encoded command
(30_encoding R70, R74, R79). -/

namespace Sys2Proof.Laws.EncodedFields

/-- The word of a well-formed command has its OPC, its LOGN and reserved bits 0. -/
def Statement (i : Instr) : Prop :=
  i.WellFormed → fieldOpc (encode i) = i.opcode ∧ fieldLogN (encode i) = i.logN ∧
    fieldRsv0 (encode i) = 0 ∧ fieldRsv1 (encode i) = 0

/-- The fields of a word put together of LOGN `k` and OPC `o`. -/
theorem fields_of_append (k : Nat) (hk : k < 16) (o : Nat) (ho : o < 32) :
    let w : Word := 0#20 ++ BitVec.ofNat 4 k ++ 0#3 ++ BitVec.ofNat 5 o
    fieldOpc w = o ∧ fieldLogN w = k ∧ fieldRsv0 w = 0 ∧ fieldRsv1 w = 0 := by
  revert o
  revert k
  decide

theorem nop (k : Nat) : Statement (.nop k) := fun h => fields_of_append k h _ (by simp [Instr.opcode])
theorem madd (k : Nat) : Statement (.madd k) := fun h => fields_of_append k h _ (by simp [Instr.opcode])
theorem msub (k : Nat) : Statement (.msub k) := fun h => fields_of_append k h _ (by simp [Instr.opcode])
theorem mmul (k : Nat) : Statement (.mmul k) := fun h => fields_of_append k h _ (by simp [Instr.opcode])
theorem mpow (k : Nat) : Statement (.mpow k) := fun h => fields_of_append k h _ (by simp [Instr.opcode])
theorem minv (k : Nat) : Statement (.minv k) := fun h => fields_of_append k h _ (by simp [Instr.opcode])
theorem ntt1 (k : Nat) : Statement (.ntt1 k) := fun h => fields_of_append k h _ (by simp [Instr.opcode])
theorem intt1 (k : Nat) : Statement (.intt1 k) := fun h => fields_of_append k h _ (by simp [Instr.opcode])
theorem ntt2 (k : Nat) : Statement (.ntt2 k) := fun h => fields_of_append k h _ (by simp [Instr.opcode])
theorem intt2 (k : Nat) : Statement (.intt2 k) := fun h => fields_of_append k h _ (by simp [Instr.opcode])
theorem pmul1 (k : Nat) : Statement (.pmul1 k) := fun h => fields_of_append k h _ (by simp [Instr.opcode])
theorem pmul2 (k : Nat) : Statement (.pmul2 k) := fun h => fields_of_append k h _ (by simp [Instr.opcode])
theorem convs (k : Nat) : Statement (.convs k) := fun h => fields_of_append k h _ (by simp [Instr.opcode])
theorem convf (k : Nat) : Statement (.convf k) := fun h => fields_of_append k h _ (by simp [Instr.opcode])

end Sys2Proof.Laws.EncodedFields
end

