-- ==== Sys2Proof/Laws/System.lean ====
section
/-! SUPPORT. The host's accesses (45_system R191, R192): which target an offset reaches, the one inversion lemma
of `hostAccess`, and what the host can and cannot change while a command is in flight. -/

namespace Sys2Proof.Machine

/-! ### Targets -/

/-- Every register is reached at its own offset (10_state R22). -/
theorem targetAt_reg (p : Params) (r : Reg) : targetAt p r.offset = some (.reg r) := by
  cases r <;> rfl

/-- Word e of DMEM is reached at 0x10000 + 4e (20_memory R53). -/
theorem targetAt_word {p : Params} {e : Nat} (h : e < p.memWords) :
    targetAt p (0x10000 + 4 * e) = some (.word e) := by
  have h1 : ¬ (0x10000 + 4 * e < 0x10000) := by omega
  have h2 : (0x10000 + 4 * e - 0x10000) / 4 = e := by omega
  simp only [targetAt, h1, h2, h, if_true, if_false]

/-- The aligned offsets of the register page above the last register are unmapped (20_memory R54). -/
theorem targetAt_unmapped_page {p : Params} {off : Nat} (h : 0x038 ≤ off) (h' : off < 0x10000) :
    targetAt p off = none := by
  simp only [targetAt, h', if_true, Reg.all, List.find?, Reg.offset]
  repeat' split
  all_goals simp_all
  all_goals omega

theorem targetAt_unmapped_window {p : Params} {off : Nat} (h : 0x10000 + 4 * p.memWords ≤ off) :
    targetAt p off = none := by
  have h1 : ¬ (off < 0x10000) := by omega
  have h2 : ¬ ((off - 0x10000) / 4 < p.memWords) := by omega
  simp only [targetAt, h1, h2, if_false]

/-- A target of the data window is a word of DMEM. -/
theorem word_in_range {p : Params} {off e : Nat} (h : targetAt p off = some (.word e)) : e < p.memWords := by
  unfold targetAt at h
  split at h
  · simp at h
  · split at h
    · simp only [Option.some.injEq, Target.word.injEq] at h
      omega
    · cases h

/-! ### Accepted accesses -/

theorem State.hostWrite_mapped {s : State} {off : BitVec 17} {size : BitVec 2} {t : Target} (v : Word)
    (hacc : accepted off size) (ht : targetAt s.params off.toNat = some t) :
    s.hostWrite off size v = (s.writeTarget t v).respond .written := by
  unfold State.hostWrite
  rw [if_neg (not_not.2 hacc), ht]

theorem State.hostRead_reg {s : State} {off : BitVec 17} {size : BitVec 2} {r : Reg}
    (hacc : accepted off size) (ht : targetAt s.params off.toNat = some (.reg r)) :
    s.hostRead off size = s.respond (.data (s.readReg r)) := by
  unfold State.hostRead
  rw [if_neg (not_not.2 hacc), ht]

theorem State.hostRead_word {s : State} {off : BitVec 17} {size : BitVec 2} {e : Nat}
    (hacc : accepted off size) (ht : targetAt s.params off.toNat = some (.word e)) :
    s.hostRead off size = (s.takeDraws 1).respond (.data
      (if s.status.busy ∧ s.inDestination e then elemBits s.params (Config.freeInFlight s.draws e)
        else s.readWord s.draws e)) := by
  unfold State.hostRead
  rw [if_neg (not_not.2 hacc), ht]
  dsimp only
  split <;> rfl

theorem hostAccess_write_eq {s : State} (off : Nat) (v : Word) (hr : s.rstN = true) :
    s.hostAccess (busWrite off v) = s.hostWrite (BitVec.ofNat 17 off) 2#2 v := by
  simp [State.hostAccess, busWrite, hr]

theorem hostAccess_read_eq {s : State} (off : Nat) (hr : s.rstN = true) :
    s.hostAccess (busRead off) = s.hostRead (BitVec.ofNat 17 off) 2#2 := by
  simp [State.hostAccess, busRead, hr]

theorem offset_toNat {off : Nat} (h : off < 2 ^ 17) : (BitVec.ofNat 17 off).toNat = off := by
  rw [BitVec.toNat_ofNat, Nat.mod_eq_of_lt h]

theorem accepted_of_aligned {off : Nat} (h : off < 2 ^ 17) (ha : off % 4 = 0) :
    accepted (BitVec.ofNat 17 off) 2#2 := ⟨rfl, by rw [offset_toNat h]; exact ha⟩

theorem hostAccess_busWrite {s : State} {off : Nat} {t : Target} (v : Word) (hr : s.rstN = true)
    (ho : off < 2 ^ 17) (ha : off % 4 = 0) (ht : targetAt s.params off = some t) :
    s.hostAccess (busWrite off v) = (s.writeTarget t v).respond .written := by
  rw [hostAccess_write_eq off v hr]
  exact State.hostWrite_mapped v (accepted_of_aligned ho ha) (by rw [offset_toNat ho, ht])

/-- An accepted write to a register (10_state R22). -/
theorem hostAccess_busWrite_reg {s : State} (r : Reg) (v : Word) (hr : s.rstN = true) :
    s.hostAccess (busWrite r.offset v) = (s.writeTarget (.reg r) v).respond .written :=
  hostAccess_busWrite v hr (by cases r <;> decide) (by cases r <;> rfl) (targetAt_reg ..)

/-- An accepted write to a word of DMEM (20_memory R53). -/
theorem hostAccess_busWrite_word {s : State} {e : Nat} (v : Word) (hr : s.rstN = true)
    (he : e < s.params.memWords) (hm : e < 2 ^ 14) :
    s.hostAccess (busWrite (0x10000 + 4 * e) v) = (s.writeTarget (.word e) v).respond .written :=
  hostAccess_busWrite v hr (by omega) (by omega) (targetAt_word he)

/-- A read of a register returns its value and changes nothing (20_memory R61). -/
theorem hostAccess_busRead_reg {s : State} (r : Reg) (hr : s.rstN = true) :
    s.hostAccess (busRead r.offset) = s.respond (.data (s.readReg r)) := by
  have ho : r.offset < 2 ^ 17 := by cases r <;> decide
  have ha : r.offset % 4 = 0 := by cases r <;> rfl
  rw [hostAccess_read_eq _ hr]
  exact State.hostRead_reg (accepted_of_aligned ho ha) (by rw [offset_toNat ho, targetAt_reg])

/-- A read of a word of DMEM (20_memory R53, 10_state R42). -/
theorem hostAccess_busRead_word {s : State} {e : Nat} (hr : s.rstN = true) (he : e < s.params.memWords)
    (hm : e < 2 ^ 14) :
    s.hostAccess (busRead (0x10000 + 4 * e)) = (s.takeDraws 1).respond (.data
      (if s.status.busy ∧ s.inDestination e then elemBits s.params (Config.freeInFlight s.draws e)
        else s.readWord s.draws e)) := by
  have ho : 0x10000 + 4 * e < 2 ^ 17 := by omega
  rw [hostAccess_read_eq _ hr]
  exact State.hostRead_word (accepted_of_aligned ho (by omega)) (by rw [offset_toNat ho, targetAt_word he])

/-- A rejected access changes nothing but the response (20_memory R51, R54). -/
theorem hostAccess_rejected {s : State} {a : HostAccess} (hr : s.rstN = true)
    (h : ¬ accepted a.offset a.size ∨ targetAt s.params a.offset.toNat = none) :
    s.hostAccess a = s.respond (if a.write then .writeError else .readError 0#32) := by
  unfold State.hostAccess State.hostWrite State.hostRead
  by_cases hw : a.write = true <;> by_cases hacc : accepted a.offset a.size <;>
    simp_all

/-! ### The inversion lemma of a host access -/

/-- Everything one host access can do to the block. -/
def HostOutcome (s t : State) : Prop :=
  (∃ r, t = s.respond r) ∨
  (s.rstN = true ∧
    ((∃ w, t = (s.takeDraws 1).respond (.data w)) ∨
    (∃ b, t = ({ s with ie := b } : State).respond .written) ∨
    (∃ v, t = (s.setStatus (s.status.writeOneToClear v)).respond .written) ∨
    (s.status.busy = true ∧ t = s.dropWrite.respond .written) ∨
    (s.status.busy = false ∧ ∃ r v, t = (s.writeIdleReg r v).respond .written) ∨
    (s.status.busy = false ∧ ∃ e v, e < s.params.memWords ∧
      t = (s.setDmem (s.dmem.write e (elemBits s.params v))).respond .written)))

theorem writeTarget_outcome (s : State) (hr : s.rstN = true) {off : Nat} {t : Target} (v : Word)
    (ht : targetAt s.params off = some t) : HostOutcome s ((s.writeTarget t v).respond .written) := by
  cases t with
  | word e =>
    cases hb : s.status.busy with
    | false =>
      refine .inr ⟨hr, .inr (.inr (.inr (.inr (.inr ⟨hb, e, v, word_in_range ht, ?_⟩))))⟩
      simp [State.writeTarget, hb]
    | true =>
      refine .inr ⟨hr, .inr (.inr (.inr (.inl ⟨hb, ?_⟩)))⟩
      simp [State.writeTarget, hb]
  | reg r =>
    have idle : ∀ u, u = (if s.status.busy then s.dropWrite else s.writeIdleReg r v).respond .written →
        HostOutcome s u := by
      rintro u rfl
      cases hb : s.status.busy with
      | false => exact .inr ⟨hr, .inr (.inr (.inr (.inr (.inl ⟨hb, r, v, by simp⟩))))⟩
      | true => exact .inr ⟨hr, .inr (.inr (.inr (.inl ⟨hb, by simp⟩)))⟩
    cases r with
    | id => exact .inl ⟨_, rfl⟩
    | param => exact .inl ⟨_, rfl⟩
    | result => exact .inl ⟨_, rfl⟩
    | ctrl => exact .inr ⟨hr, .inr (.inl ⟨_, rfl⟩)⟩
    | status => exact .inr ⟨hr, .inr (.inr (.inl ⟨v, rfl⟩))⟩
    | cmd => exact idle _ rfl
    | mod => exact idle _ rfl
    | root => exact idle _ rfl
    | rootInv => exact idle _ rfl
    | opa => exact idle _ rfl
    | opb => exact idle _ rfl
    | srca => exact idle _ rfl
    | srcb => exact idle _ rfl
    | dst => exact idle _ rfl

/-- THE INVERSION LEMMA of a host access. -/
theorem hostAccess_outcome (s : State) (a : HostAccess) : HostOutcome s (s.hostAccess a) := by
  unfold State.hostAccess
  split
  · rename_i hr
    split
    · unfold State.hostWrite
      split
      · exact .inl ⟨_, rfl⟩
      · split
        · exact .inl ⟨_, rfl⟩
        · exact writeTarget_outcome s hr _ ‹_›
    · unfold State.hostRead
      split
      · exact .inl ⟨_, rfl⟩
      · split
        · exact .inl ⟨_, rfl⟩
        · exact .inl ⟨_, rfl⟩
        · split
          · exact .inr ⟨hr, .inl ⟨_, rfl⟩⟩
          · exact .inr ⟨hr, .inl ⟨_, rfl⟩⟩
  · split
    · exact .inl ⟨_, rfl⟩
    · exact .inl ⟨_, rfl⟩

end Sys2Proof.Machine
end

