-- ==== Sys2Proof/Laws/Step.lean ====
section
/-! SUPPORT. What one step can do, said once: the inversion lemma of `step`. -/

namespace Sys2Proof.Machine

/-- The unit's turn: nothing, or the completion of the command in flight (10_state R40). -/
theorem State.unitTurn_cases (s : State) :
    (¬ (s.status.busy = true ∧ s.rstN = true) ∧ s.unitTurn = .next s) ∨
    (s.status.busy = true ∧ s.rstN = true ∧ s.unitTurn = s.completeCommand) := by
  unfold State.unitTurn
  by_cases h : s.status.busy = true ∧ s.rstN = true
  · exact .inr ⟨h.1, h.2, if_pos h⟩
  · exact .inl ⟨h, if_neg h⟩

/-- Everything a step can do, with `s₀` the state after the input is taken off the list. -/
theorem step_cases (s : State) : ∃ s₀ t, s₀ = { s with inputs := s₀.inputs } ∧ step s = .next t ∧
    (t = s₀ ∨
      (s₀.status.busy = true ∧ s₀.rstN = true ∧ s₀.completeCommand = .next t) ∨
      (∃ a, t = s₀.hostAccess a) ∨
      (∃ level, t = s₀.sampleReset level)) := by
  have unit : ∀ s₀ : State, ∃ t, s₀.unitTurn = .next t ∧ (t = s₀ ∨
      (s₀.status.busy = true ∧ s₀.rstN = true ∧ s₀.completeCommand = .next t)) := by
    intro s₀
    rcases s₀.unitTurn_cases with ⟨-, h⟩ | ⟨hb, hr, h⟩
    · exact ⟨s₀, h, .inl rfl⟩
    · obtain ⟨t, ht, -⟩ := s₀.completeCommand_cases
      exact ⟨t, h.trans ht, .inr ⟨hb, hr, ht⟩⟩
  unfold step
  split
  · obtain ⟨t, ht, hc⟩ := unit s
    exact ⟨s, t, rfl, ht, hc.elim .inl (.inr ∘ .inl)⟩
  · rename_i rest _
    obtain ⟨t, ht, hc⟩ := unit (s.setInputs rest)
    exact ⟨s.setInputs rest, t, rfl, ht, hc.elim .inl (.inr ∘ .inl)⟩
  · rename_i a rest _
    exact ⟨s.setInputs rest, _, rfl, rfl, .inr (.inr (.inl ⟨a, rfl⟩))⟩
  · rename_i level rest _
    exact ⟨s.setInputs rest, _, rfl, rfl, .inr (.inr (.inr ⟨level, rfl⟩))⟩

end Sys2Proof.Machine
end

