-- ==== Sys2Proof/Tests/Slice0.lean ====
section
/-! SUPPORT. The model's own tests: well-formedness, words written out from 30_encoding R74, one step of each
instruction with the values of 95_test_vectors, the host's accesses, and a witness for the hypotheses of
every statement. -/

namespace Sys2Proof.Machine.Tests

/-! ## Well-formedness and encoding -/

/-- LOGN is a 4-bit field (30_encoding R72): 16 is refused. -/
theorem test_wellFormed_refuses_logN_16 :
    ¬ (Instr.nop 16).WellFormed ∧ ¬ (Instr.minv 16).WellFormed ∧ ¬ (Instr.convf 16).WellFormed := by decide

theorem test_wellFormed_admits_logN_15 : (Instr.nop 15).WellFormed ∧ (Instr.convf 15).WellFormed := by decide

/-- The words of 30_encoding R74, written out bit by bit: RSV1, LOGN, RSV0, OPC. -/
theorem test_decode_nop : decode 0b00000000000000000000_1111_000_00000#32 = .ok (.nop 15) := by decide
theorem test_decode_madd : decode 0b00000000000000000000_0000_000_00001#32 = .ok (.madd 0) := by decide
theorem test_decode_msub : decode 0b00000000000000000000_0000_000_00010#32 = .ok (.msub 0) := by decide
theorem test_decode_mmul : decode 0b00000000000000000000_0001_000_00011#32 = .ok (.mmul 1) := by decide
theorem test_decode_mpow : decode 0b00000000000000000000_0000_000_00100#32 = .ok (.mpow 0) := by decide
theorem test_decode_minv : decode 0b00000000000000000000_0000_000_00101#32 = .ok (.minv 0) := by decide
theorem test_decode_ntt1 : decode 0b00000000000000000000_0010_000_01000#32 = .ok (.ntt1 2) := by decide
theorem test_decode_intt1 : decode 0b00000000000000000000_1000_000_01001#32 = .ok (.intt1 8) := by decide
theorem test_decode_ntt2 : decode 0b00000000000000000000_0010_000_01010#32 = .ok (.ntt2 2) := by decide
theorem test_decode_intt2 : decode 0b00000000000000000000_0001_000_01011#32 = .ok (.intt2 1) := by decide
theorem test_decode_pmul1 : decode 0b00000000000000000000_0100_000_01100#32 = .ok (.pmul1 4) := by decide
theorem test_decode_pmul2 : decode 0b00000000000000000000_0010_000_01101#32 = .ok (.pmul2 2) := by decide
theorem test_decode_convs : decode 0b00000000000000000000_0010_000_01110#32 = .ok (.convs 2) := by decide
theorem test_decode_convf : decode 0b00000000000000000000_0010_000_01111#32 = .ok (.convf 2) := by decide

/-- Reserved bits (R73; V-S4, V-S6, V-P1) and unassigned opcodes (R75; V-S5). -/
theorem test_decode_illegal :
    decode 0x00000020#32 = .error .reservedBits ∧ decode 0x00001000#32 = .error .reservedBits ∧
    decode 0x0000100E#32 = .error .reservedBits ∧ decode 0x80000000#32 = .error .reservedBits ∧
    decode 0x00000006#32 = .error .unassignedOpcode ∧ decode 0x00000007#32 = .error .unassignedOpcode ∧
    decode 0x00000010#32 = .error .unassignedOpcode ∧ decode 0x0000001F#32 = .error .unassignedOpcode := by
  decide

/-- The command words of the programs P2 to P5 (95_test_vectors). -/
theorem test_encode :
    encode (.ntt1 2) = 0x00000208#32 ∧ encode (.intt1 2) = 0x00000209#32 ∧ encode (.ntt1 11) = 0x00000B08#32 ∧
    encode (.convf 2) = 0x0000020F#32 ∧ encode (.nop 0) = 0#32 := by decide

theorem test_decodeTableWord :
    decodeTableWord 32 0x20F = some (.convf 2) ∧ decodeTableWord 32 0x20 = none := by decide

/-! ## States -/

/-- The state a step answers. -/
def after : Host.Outcome State Fault Refusal → Option State
  | .next t => some t
  | .fault _ => none
  | .refused _ => none

/-- A command in flight with a modulus and the scalar operands. -/
def scalarState (p a b : Word) : State :=
  { State.reset with status := Status.reset.issued, mod := p, opa := a, opb := b, result := 99#32 }

/-- RESULT and STATUS after a command. -/
def scalarAfter (i : Instr) (s : State) : Option (Word × Word) :=
  (after (exec i s)).map fun t => (t.result, t.status.toWord)

/-- DMEM with the words `ws` from element address 0. -/
def words (ws : List Nat) : Memory := ws.zipIdx.map fun x => (x.2, BitVec.ofNat 32 x.1)

/-- A command in flight with p = 17, roots, bases, and `ws` in DMEM. -/
def vectorState (w wi : Word) (sa sb d : ElemAddr) (ws : List Nat) : State :=
  { State.reset with
    status := Status.reset.issued, mod := 17#32, root := w, rootInv := wi, srca := sa, srcb := sb, dst := d
    dmem := words ws }

/-- STATUS and the `n` words at DST after a command. -/
def vectorAfter (i : Instr) (n : Nat) (s : State) : Option (Word × List (Option Word)) :=
  (after (exec i s)).map fun t =>
    (t.status.toWord, (List.range n).map fun j => t.dmem.lookup (s.dst.toNat + j))

/-- The result of a vector command that succeeded with these words. -/
def succeeds (ws : List Nat) : Option (Word × List (Option Word)) :=
  some (2#32, ws.map fun x => some (BitVec.ofNat 32 x))

/-! ## One step of each instruction (95_test_vectors sections 2.1 to 2.5) -/

/-- V-S2: MOD = 0 and STATUS 0x0000_0002; RESULT is left alone. -/
theorem test_nop : scalarAfter (.nop 15) (scalarState 0#32 5#32 6#32) = some (99#32, 2#32) := by decide

/-- V-MA3: the sum exceeds 2^32 and does not overflow. -/
theorem test_madd : scalarAfter (.madd 0) (scalarState 4294967291#32 0xFFFFFFFF#32 0xFFFFFFFF#32) =
    some (8#32, 2#32) := by decide

/-- V-MA5: a < b. -/
theorem test_msub : scalarAfter (.msub 0) (scalarState 17#32 3#32 5#32) = some (15#32, 2#32) := by decide

/-- V-MA8. -/
theorem test_msub_borrow : scalarAfter (.msub 0) (scalarState 4294967291#32 0#32 0xFFFFFFFF#32) =
    some (4294967287#32, 2#32) := by decide

/-- V-MA10: the 64-bit product. -/
theorem test_mmul : scalarAfter (.mmul 0) (scalarState 4294967291#32 0xFFFFFFFF#32 0xFFFFFFFF#32) =
    some (16#32, 2#32) := by decide

/-- V-MA12: the source's `pow(3,15,17) = 6`. -/
theorem test_mpow : scalarAfter (.mpow 0) (scalarState 17#32 3#32 15#32) = some (6#32, 2#32) := by decide

/-- V-MA14: 0^0 = 1. -/
theorem test_mpow_zero : scalarAfter (.mpow 0) (scalarState 17#32 0#32 0#32) = some (1#32, 2#32) := by decide

/-- V-MA19: a >= p. -/
theorem test_minv : scalarAfter (.minv 0) (scalarState 17#32 20#32 0#32) = some (6#32, 2#32) := by decide

/-- V-MA25: STATUS 0x0000_0606 and RESULT unchanged. -/
theorem test_minv_zero : scalarAfter (.minv 0) (scalarState 17#32 34#32 0#32) = some (99#32, 0x606#32) := by
  decide

/-- W2: the root 3 is not primitive, and the recursion's value is asked for. -/
theorem test_ntt1 : vectorAfter (.ntt1 2) 4 (vectorState 3#32 0#32 0#16 0#16 4#16 [1, 2, 3, 4]) =
    succeeds [10, 9, 15, 4] := by decide

/-- W5: n = 1 is copied unreduced. -/
theorem test_ntt1_copy : vectorAfter (.ntt1 0) 1 (vectorState 3#32 0#32 0#16 0#16 1#16 [20]) =
    succeeds [20] := by decide

/-- W2 backwards. -/
theorem test_intt1 : vectorAfter (.intt1 2) 4 (vectorState 3#32 6#32 0#16 0#16 4#16 [10, 9, 15, 4]) =
    succeeds [1, 2, 3, 4] := by decide

/-- V-N12: n = 1 is reduced by the inverse. -/
theorem test_intt1_one : vectorAfter (.intt1 0) 1 (vectorState 3#32 6#32 0#16 0#16 1#16 [20]) =
    succeeds [3] := by decide

/-- V-T5: n = 2. -/
theorem test_ntt2 : vectorAfter (.ntt2 1) 4 (vectorState 16#32 0#32 0#16 0#16 4#16 [1, 2, 3, 4]) =
    succeeds [10, 15, 13, 0] := by decide

/-- V-T1: the source's matrix. -/
theorem test_ntt2_rows_then_columns :
    ntt2Fn 2 [[1, 2, 3, 4], [5, 6, 7, 8], [9, 10, 11, 12], [13, 14, 15, 16]] 17 3 =
      [[0, 2, 9, 16], [8, 0, 0, 0], [2, 0, 0, 0], [13, 0, 0, 0]] := by decide

/-- V-T6. -/
theorem test_intt2 : vectorAfter (.intt2 1) 4 (vectorState 0#32 16#32 0#16 0#16 4#16 [10, 15, 13, 0]) =
    succeeds [1, 2, 3, 4] := by decide

/-- V-PM1. -/
theorem test_pmul1 :
    vectorAfter (.pmul1 2) 4 (vectorState 0#32 0#32 0#16 4#16 8#16 [16, 20, 0, 5, 16, 3, 9, 7]) =
      succeeds [1, 9, 0, 1] := by decide

/-- V-PM2. -/
theorem test_pmul2 :
    vectorAfter (.pmul2 1) 4 (vectorState 0#32 0#32 0#16 4#16 8#16 [1, 2, 3, 4, 5, 6, 7, 8]) =
      succeeds [5, 12, 4, 15] := by decide

/-- V-CS3: the flip shows at n = 2. -/
theorem test_convs :
    vectorAfter (.convs 1) 4 (vectorState 0#32 0#32 0#16 4#16 8#16 [1, 2, 3, 4, 5, 6, 7, 8]) =
      succeeds [9, 11, 0, 2] := by decide

/-- V-CF5: without the flip. -/
theorem test_convf :
    vectorAfter (.convf 1) 4 (vectorState 16#32 16#32 0#16 4#16 8#16 [1, 2, 3, 4, 5, 6, 7, 8]) =
      succeeds [2, 0, 11, 9] := by decide

/-- V-N24, V-N25: in place is refused, and a region past 4095; DMEM is untouched. -/
theorem test_ntt1_errors :
    vectorAfter (.ntt1 2) 1 (vectorState 3#32 0#32 0#16 0#16 0#16 [7]) = some (0x506#32, [some 7#32]) ∧
    vectorAfter (.ntt1 2) 1 (vectorState 3#32 0#32 4093#16 0#16 0#16 [7]) = some (0x406#32, [some 7#32]) ∧
    vectorAfter (.ntt1 11) 1 (vectorState 3#32 0#32 4095#16 0#16 0#16 [7]) = some (0x306#32, [some 7#32]) := by
  decide

/-- V-P5: OVERLAP before NO_INVERSE. -/
theorem test_check_priority :
    vectorAfter (.intt1 1) 0 { vectorState 0#32 0#32 0#16 0#16 1#16 [] with mod := 2#32 } =
      some (0x506#32, []) := by decide

/-! ## The host's side (95_test_vectors section 2.6, P1, P5) -/

/-- The response to a read of a byte offset. -/
def readAt (s : State) (off : Nat) : Option BusResponse := (s.hostAccess (busRead off)).response

/-- V-S1, V-S10, V-S12: ID, PARAM, and two unmapped offsets. -/
theorem test_reads_after_reset :
    readAt State.reset 0x000 = some (.data 0x4E540001#32) ∧
    readAt State.reset 0x004 = some (.data 0x000C0A20#32) ∧
    readAt State.reset 0x038 = some (.readError 0#32) ∧
    readAt State.reset 0x14000 = some (.readError 0#32) := by decide

/-- V-S11: a 16-bit read; and a misaligned one. -/
theorem test_narrow_read_is_a_bus_error :
    State.reset.hostAccess { busRead 0x00C with size := 1#2 } =
      { State.reset with response := some (.readError 0#32) } ∧
    readAt State.reset 0x00E = some (.readError 0#32) := by decide

/-- V-S14: ELEM_W = 8. -/
theorem test_mod_keeps_elemW_bits :
    ((State.resetWith { elemW := 8, memLog2 := 4, logNMax := 3 }).hostAccess (busWrite 0x014 0x111#32)).mod =
      0x11#32 := by decide

/-- V-S9: STATUS 0x0000_0606, then a write of 4. -/
theorem test_status_write_one_to_clear :
    (({ busy := false, done := true, err := true, haz := false, ecode := 6#4 } : Status).writeOneToClear
      4#32).toWord = 2#32 := by decide

/-- P5 step 11, the write before the completion: STATUS 0x0000_0009, OPA kept. -/
theorem test_write_while_busy :
    let t := (scalarState 17#32 5#32 6#32).hostAccess (busWrite 0x020 7#32)
    t.status.toWord = 9#32 ∧ t.opa = 5#32 ∧ scalarAfter (.mmul 0) t = some (13#32, 0xA#32) := by decide

/-- V-S13: a write to RESULT while idle is answered OK and changes nothing else. -/
theorem test_write_to_result_is_ignored :
    State.reset.hostAccess (busWrite 0x028 5#32) = { State.reset with response := some .written } := by decide

/-- The bus encodings of P1 steps 1 and 4 and of P2 steps 3 and 7. -/
theorem test_host_program_encodings :
    hostWr .mod 17#32 = .host { offset := 0x014#17, write := true, size := 2#2, wdata := 0x11#32 } ∧
    hostCmd (.mpow 0) = .host { offset := 0x010#17, write := true, size := 2#2, wdata := 4#32 } ∧
    hostWrM 3 4#32 = .host { offset := 0x1000C#17, write := true, size := 2#2, wdata := 4#32 } ∧
    hostRdM 7 = .host { offset := 0x1001C#17, write := false, size := 2#2, wdata := 0#32 } := by decide

/-- A placed word is the very next step's command (notes/assumptions/11); V-P7, V-P2. -/
theorem test_withFetchWord :
    (after (step (State.reset.withFetchWord 32 0))).map (·.status.toWord) = some 2#32 ∧
    (after (step (State.reset.withFetchWord 32 0xC08))).map (·.status.toWord) = some 0x206#32 ∧
    (after (step (State.reset.withFetchWord 32 0x100E))).map (·.status.toWord) = some 0x106#32 := by decide

/-- The reset pin at 0 abandons the command in flight (70_reset R230). -/
theorem test_reset_abandons :
    (after (step { vectorState 3#32 6#32 0#16 0#16 4#16 [1] with inputs := [.resetPin false] })).map
      (fun t => (t.status.toWord, t.dmem, t.mod, t.rstN)) = some (0#32, [], 0#32, false) := by decide

/-! ## Witnesses: the hypotheses of every statement are met (Certificates/Slice0/Obligations.lean) -/

/-- DecodeOfEncodeIsIdentity and the first half of EncodeOfDecodeIsIdentity: the ends of LOGN. -/
theorem witness_wellFormed : (Instr.convf 15).WellFormed ∧ (Instr.madd 0).WellFormed := by decide

/-- EncodeOfDecodeIsIdentity: a word with its reserved bits 0 and OPC 0x0F, the last assigned. -/
theorem witness_EncodeOfDecodeIsIdentity :
    let c := 0x00000F0F#32
    c.extractLsb' 5 3 = 0#3 ∧ c.extractLsb' 12 20 = 0#20 ∧ (c.extractLsb' 0 5).toNat ≠ 0x06 ∧
      (c.extractLsb' 0 5).toNat ≠ 0x07 ∧ (c.extractLsb' 0 5).toNat < 0x10 := by decide

/-- DecoderFollowsOpcodeMap: each reason to refuse on its own, and a word that decodes. -/
theorem witness_DecoderFollowsOpcodeMap :
    (0x00000080#32).extractLsb' 5 3 ≠ 0#3 ∧ (0x00001000#32).extractLsb' 12 20 ≠ 0#20 ∧
    ((0x00000006#32).extractLsb' 0 5).toNat = 0x06 ∧ ((0x00000007#32).extractLsb' 0 5).toNat = 0x07 ∧
    0x10 ≤ ((0x00000010#32).extractLsb' 0 5).toNat ∧ decode 0x0000000F#32 = .ok (.convf 0) := by decide

/-- A command word in CMD, in flight: PMUL1 with n = 2, sources at 0 and 2, destination at 4. -/
def busyState : State :=
  { vectorState 0#32 0#32 0#16 2#16 4#16 [1, 2, 3, 4] with cmd := 0x0000010C#32 }

/-- StepRunsTheNextInput: a command in flight, with each kind of next input, and an illegal word in flight. -/
theorem witness_StepRunsTheNextInput :
    busyState.status.busy = true ∧ busyState.rstN = true ∧ decode busyState.cmd = .ok (.pmul1 1) ∧
    busyState.inputs = [] ∧ { busyState with inputs := [.unitTurn] }.inputs = .unitTurn :: [] ∧
    { busyState with inputs := [hostRd .status] }.inputs = .host (busRead 0x00C) :: [] ∧
    { busyState with inputs := [.resetPin true] }.inputs = .resetPin true :: [] ∧
    decode { busyState with cmd := 0x20#32 }.cmd = .error .reservedBits := by decide

/-- PlacedWordRunsNext. -/
theorem witness_PlacedWordRunsNext : decode 0x00000F0F#32 = .ok (.convf 15) := by decide

/-- IllegalWordsCompleteWithIllegalOp: each reason, at the ends of its range. -/
theorem witness_IllegalWordsCompleteWithIllegalOp :
    { busyState with cmd := 0x00000020#32 }.cmd.extractLsb' 5 3 ≠ 0#3 ∧
    { busyState with cmd := 0x00001000#32 }.cmd.extractLsb' 12 20 ≠ 0#20 ∧
    ({ busyState with cmd := 0x00000006#32 }.cmd.extractLsb' 0 5).toNat ∈ [0x06, 0x07] ∧
    ({ busyState with cmd := 0x00000007#32 }.cmd.extractLsb' 0 5).toNat ∈ [0x06, 0x07] ∧
    0x10 ≤ ({ busyState with cmd := 0x00000010#32 }.cmd.extractLsb' 0 5).toNat ∧
    0x10 ≤ ({ busyState with cmd := 0x0000001F#32 }.cmd.extractLsb' 0 5).toNat := by decide

/-- UnitTurnCompletesTheCommand: the unit's turn with a command in flight and without. -/
theorem witness_UnitTurnCompletesTheCommand :
    { busyState with inputs := [.unitTurn] }.inputs = .unitTurn :: [] ∧ busyState.status.busy = true ∧
    busyState.rstN = true ∧ { State.reset with inputs := [.unitTurn] }.inputs = .unitTurn :: [] ∧
    State.reset.status.busy = false := by decide

/-- HasOpcode, in the statements of the fourteen commands: legal words and one with a reserved bit set. -/
theorem witness_hasOpcode :
    ((0x00000000#32).extractLsb' 0 5).toNat = 0x00 ∧ ((0x00000020#32).extractLsb' 0 5).toNat = 0x00 ∧
    ((0x00000F0F#32).extractLsb' 0 5).toNat = 0x0F ∧ ((0x80000001#32).extractLsb' 0 5).toNat = 0x01 := by
  decide

/-- MaddAddsModulo to MinvInvertsByFermat: MOD = 0; MOD = 1 and MOD = 2^32 - 1; OPA ≡ 0 and not. -/
theorem witness_scalar_commands :
    (scalarState 0#32 5#32 6#32).mod.toNat = 0 ∧ (scalarState 1#32 5#32 6#32).mod.toNat ≠ 0 ∧
    (scalarState 0xFFFFFFFF#32 5#32 6#32).mod.toNat ≠ 0 ∧
    (scalarState 17#32 34#32 6#32).opa.toNat % (scalarState 17#32 34#32 6#32).mod.toNat = 0 ∧
    (scalarState 17#32 35#32 6#32).opa.toNat % (scalarState 17#32 35#32 6#32).mod.toNat ≠ 0 := by decide

/-- ModularFunctionLaws. -/
theorem witness_ModularFunctionLaws : 1 ≤ 17 ∧ Nat.Prime 17 ∧ 20 % 17 ≠ 0 ∧ 1 ≤ 1 :=
  ⟨by decide, by norm_num, by decide, by decide⟩

/-- NttFollowsTheRecursion, NttDependsOnRootModulo, InttScalesOnce, NttIsLinear: lengths 2 and 4. -/
theorem witness_sequences :
    [5, 9].length = 2 ^ (0 + 1) ∧ [1, 2, 3, 4].length = 2 ^ (1 + 1) ∧ 1 < 2 ^ 1 ∧ 2 ≤ 17 ∧ 1 ≤ 17 ∧
    [20].length = 2 ^ 0 ∧ 2 ^ 2 % 17 ≠ 0 ∧ 3 < 2 ^ 2 := by decide

/-- Ready: every vector form completes somewhere, at n = 2. -/
theorem witness_ready :
    (vectorState 4#32 13#32 0#16 0#16 4#16 []).Ready false false 1 (2 ^ 1) ∧
    (vectorState 4#32 13#32 0#16 0#16 4#16 []).Ready false true 1 (2 ^ 1) ∧
    (vectorState 4#32 13#32 0#16 0#16 4#16 []).Ready false false 1 (2 ^ 1 * 2 ^ 1) ∧
    (vectorState 4#32 13#32 0#16 0#16 4#16 []).Ready false true 1 (2 ^ 1 * 2 ^ 1) ∧
    (vectorState 4#32 13#32 0#16 0#16 4#16 []).Ready true false 1 (2 ^ 1) ∧
    (vectorState 4#32 13#32 0#16 0#16 4#16 []).Ready true false 1 (2 ^ 1 * 2 ^ 1) ∧
    (vectorState 4#32 13#32 0#16 0#16 4#16 []).Ready true true 1 (2 ^ 1 * 2 ^ 1) := by
  refine ⟨?_, ?_, ?_, ?_, ?_, ?_, ?_⟩ <;> decide

/-- Ready at its boundaries: V-N26, a source ending exactly at word 4095; a destination that ends where the
source begins; MOD = 1 where nothing is scaled; SRCA = SRCB. -/
theorem witness_ready_boundary :
    (vectorState 4#32 13#32 4092#16 0#16 0#16 []).Ready false false 2 (2 ^ 2) ∧
    (vectorState 4#32 13#32 4092#16 4092#16 4088#16 []).Ready true true 1 (2 ^ 1 * 2 ^ 1) ∧
    { vectorState 4#32 13#32 0#16 0#16 1#16 [] with mod := 1#32 }.Ready true false 0 (2 ^ 0) :=
  ⟨(State.vectorCheck_eq_none_iff _ ntt1Form 2).1 (by decide),
    (State.vectorCheck_eq_none_iff _ convfForm 1).1 (by decide),
    (State.vectorCheck_eq_none_iff _ pmul1Form 0).1 (by decide)⟩

/-- ChecksInOrder: each clause in turn, with every condition before it met, at boundary values: MOD = 0;
LOGN = 11 and 15; a region one word too long, at each of the three bases; an overlap in one word, with
each source; MOD = 2 and n = 2. -/
theorem witness_checksInOrder :
    (let s := vectorState 4#32 13#32 0#16 0#16 4#16 []
     { s with mod := 0#32 }.mod.toNat = 0 ∧ s.mod.toNat ≠ 0 ∧ s.params.logNMax < 11 ∧
       s.params.logNMax < 15 ∧ 10 ≤ s.params.logNMax) ∧
    ¬ (vectorState 4#32 13#32 4093#16 0#16 0#16 []).RegionsFit false (2 ^ 2) ∧
    ¬ (vectorState 4#32 13#32 0#16 4093#16 8#16 []).RegionsFit true (2 ^ 1 * 2 ^ 1) ∧
    ¬ (vectorState 4#32 13#32 0#16 0#16 65535#16 []).RegionsFit false (2 ^ 0) ∧
    (let s := vectorState 4#32 13#32 0#16 0#16 3#16 []
     s.RegionsFit false (2 ^ 2) ∧ ¬ s.RegionsApart false (2 ^ 2)) ∧
    (let s := vectorState 4#32 13#32 0#16 8#16 11#16 []
     s.RegionsFit true (2 ^ 2) ∧ ¬ s.RegionsApart true (2 ^ 2)) ∧
    (let s := { vectorState 4#32 13#32 0#16 0#16 4#16 [] with mod := 2#32 }
     s.mod.toNat ≠ 0 ∧ 1 ≤ s.params.logNMax ∧ s.RegionsFit true (2 ^ 1 * 2 ^ 1) ∧
       s.RegionsApart true (2 ^ 1 * 2 ^ 1) ∧ 2 ^ 1 % s.mod.toNat = 0) := by
  refine ⟨by decide, by decide, by decide, by decide, ⟨by decide, ?_⟩, ⟨by decide, ?_⟩,
    by decide, by decide, by decide, by decide, by decide⟩
  · exact fun h => h.1 ⟨3, by decide⟩
  · exact fun h => h.2 rfl ⟨11, by decide⟩

/-- NttIsTheDft and Ntt2IsTheDft: both cases. -/
theorem witness_NttIsTheDft :
    (1 ≤ 17 ∧ [1, 2, 3, 4].length = 2 ^ 2 ∧ 1 ≤ 2 ∧ 4 ^ (2 ^ (2 - 1)) ≡ 17 - 1 [MOD 17]) ∧
    ([5].length = 2 ^ 0 ∧ [5].getD 0 0 < 17) ∧
    (Mat.Square (2 ^ 1) [[1, 2], [3, 4]] ∧ 16 ^ (2 ^ (1 - 1)) ≡ 17 - 1 [MOD 17]) := by
  refine ⟨⟨by decide, by decide, by decide, by decide⟩, by decide, by decide, by decide⟩

theorem orderOf_four_mod_17 : orderOf ((4 : ℕ) : ZMod 17) = 4 := by
  rw [orderOf_eq_iff (by decide)]
  refine ⟨by decide, fun m hm hm' => ?_⟩
  interval_cases m <;> decide

/-- InttUndoesNtt, Intt2UndoesNtt2: p = 17, w = 4, w_inv = 13, n = 4, and n = 1. -/
theorem witness_InttUndoesNtt :
    PrimitiveRoot 17 (2 ^ 2) 4 ∧ 4 * 13 % 17 = 1 ∧ [1, 2, 3, 4].length = 2 ^ 2 ∧
    (∀ x ∈ [1, 2, 3, 4], x < 17) ∧
    Mat.Square (2 ^ 2) [[1, 2, 3, 4], [5, 6, 7, 8], [9, 10, 11, 12], [13, 14, 15, 16]] ∧
    (∀ row ∈ [[1, 2, 3, 4], [5, 6, 7, 8], [9, 10, 11, 12], [13, 14, 15, 16]], ∀ x ∈ row, x < 17) ∧
    PrimitiveRoot 17 (2 ^ 0) 1 ∧ 1 * 1 % 17 = 1 ∧ [16].length = 2 ^ 0 :=
  ⟨⟨by norm_num, orderOf_four_mod_17⟩, by decide, by decide, by decide, by decide, by decide,
    ⟨by norm_num, by simp⟩, by decide, by decide⟩

/-- TransformsAreSeparable, ConvfIsTransformProductInverse. -/
theorem witness_square : Mat.Square (2 ^ 1) [[1, 2], [3, 4]] ∧ Mat.Square (2 ^ 0) [[20]] ∧ 1 < 2 ^ 1 := by
  decide

/-- ConvsIsTheExactSum, ConvsIsFlippedConvolution. -/
theorem witness_ConvsIsTheExactSum : 0 < 2 ∧ 1 < 2 ∧ 1 ≤ 17 := by decide

/-- ConvfIsCircularConvolution, ConvfMatchesConvsFlipped: n = 4, and n = 1 with a root of no order 1. -/
theorem witness_ConvfIsCircularConvolution :
    Nat.Prime 17 ∧ 4 * 13 % 17 = 1 ∧ (1 ≤ 2 ∧ orderOf ((4 : ℕ) : ZMod 17) = 2 ^ 2) ∧
    Mat.Square (2 ^ 2) [[1, 2, 0, 0], [3, 4, 0, 0], [0, 0, 0, 0], [0, 0, 0, 0]] ∧
    Mat.Square (2 ^ 0) [[5]] ∧ 3 * 6 % 17 = 1 :=
  ⟨by norm_num, by decide, ⟨by decide, orderOf_four_mod_17⟩, by decide, by decide, by decide⟩

/-- ModulusZeroIsRefusedAndOneIsAccepted. -/
theorem witness_ModulusZeroIsRefusedAndOneIsAccepted :
    { busyState with mod := 0#32 }.mod = 0#32 ∧ (∀ k, Instr.convf 2 ≠ .nop k) ∧
    (let s := { vectorState 4#32 13#32 0#16 8#16 16#16 [] with mod := 1#32 }
     s.mod = 1#32 ∧ 1 ≤ s.params.logNMax ∧ s.RegionsFit false (2 ^ 1) ∧ s.RegionsApart false (2 ^ 1) ∧
       s.RegionsFit false (2 ^ 1 * 2 ^ 1) ∧ s.RegionsApart false (2 ^ 1 * 2 ^ 1) ∧
       s.RegionsFit true (2 ^ 1 * 2 ^ 1) ∧ s.RegionsApart true (2 ^ 1 * 2 ^ 1)) :=
  ⟨by decide, fun _ => by simp, by decide⟩

/-- ErrorsArePrecise: a legal word and an illegal one that end in an error; CompletionReportsOneOutcome and
the second half of InterruptIsDoneAndEnabled: a command that completes. -/
theorem witness_ErrorsArePrecise :
    (∃ t, { busyState with mod := 0#32 }.completeCommand = .next t ∧ t.status.err = true) ∧
    (∃ t, { busyState with cmd := 0x20#32 }.completeCommand = .next t ∧ t.status.err = true) ∧
    ∃ t, busyState.completeCommand = .next t ∧ t.status.err = false :=
  ⟨⟨_, rfl, rfl⟩, ⟨_, rfl, rfl⟩, ⟨_, rfl, rfl⟩⟩

/-- CommandsWriteOnlyTheirDestination: a vector command that succeeds, with an address before, after, and in
each source region; a command that fails; a scalar command that changes RESULT. -/
theorem witness_CommandsWriteOnlyTheirDestination :
    (∃ t, exec (.pmul1 1) busyState = .next t ∧ vectorForm (.pmul1 1) = some pmul1Form ∧
      3 < busyState.dst.toNat ∧ busyState.dst.toNat + pmul1Form.words 1 ≤ 6 ∧
      busyState.srca.toNat ≤ 1 ∧ 1 < busyState.srca.toNat + pmul1Form.words 1 ∧
      pmul1Form.readsB = true ∧ busyState.srcb.toNat ≤ 3 ∧ 3 < busyState.srcb.toNat + pmul1Form.words 1) ∧
    (∃ t, exec (.pmul1 11) busyState = .next t ∧ t.status.err = true) ∧
    vectorForm (.madd 0) = none ∧
    ∃ t, exec (.madd 0) (scalarState 17#32 5#32 6#32) = .next t ∧
      t.result ≠ (scalarState 17#32 5#32 6#32).result :=
  ⟨⟨_, rfl, by decide⟩, ⟨_, rfl, rfl⟩, rfl, ⟨_, rfl, by decide⟩⟩

/-- ResultIsFixedAtIssue: a vector command in flight, its four source words written, and a host that tries to
change an operand, reads STATUS and clears HAZ. -/
theorem witness_ResultIsFixedAtIssue :
    busyState.status.busy = true ∧ busyState.rstN = true ∧ decode busyState.cmd = .ok (.pmul1 1) ∧
    busyState.SourcesWritten (.pmul1 1) ∧ (∃ t, busyState.completeCommand = .next t) ∧
    ∃ t', (busyState.hostAccesses [busWrite 0x10000 9#32, busRead 0x00C, busWrite 0x00C 8#32]).completeCommand
      = .next t' := by
  refine ⟨by decide, by decide, by decide, ⟨?_, fun _ => ?_⟩, ⟨_, rfl⟩, ⟨_, rfl⟩⟩
  · intro i hi
    replace hi : i < 2 := hi
    interval_cases i <;> decide
  · intro i hi
    replace hi : i < 2 := hi
    interval_cases i <;> decide

/-- RegisterMapReads: the first and the last register, out of reset. -/
theorem witness_RegisterMapReads :
    State.reset.rstN = true ∧ (0x000, 0x4E540001#32) ∈ [(0x000, 0x4E540001#32)] ∧
    0x034 ∈ registerOffsets ∧ 0x000 ∈ registerOffsets := by decide

/-- BusErrorsChangeNothing: each reason alone, at the ends of its range; and an access during reset. -/
theorem witness_BusErrorsChangeNothing :
    State.reset.rstN = true ∧ { busRead 0x000 with size := 3#2 }.size ≠ 2#2 ∧
    (busRead 0x001).offset.toNat % 4 ≠ 0 ∧
    (0x038 ≤ (busRead 0x038).offset.toNat ∧ (busRead 0x038).offset.toNat ≤ 0x0FFFF) ∧
    (0x038 ≤ (busWrite 0xFFFC 1#32).offset.toNat ∧ (busWrite 0xFFFC 1#32).offset.toNat ≤ 0x0FFFF) ∧
    0x10000 + 4 * State.reset.params.memWords ≤ (busRead 0x14000).offset.toNat ∧
    0x10000 + 4 * State.reset.params.memWords ≤ (busRead 0x1FFFC).offset.toNat ∧
    (State.reset.sampleReset false).rstN = false := by decide

/-- The statements about idle writes (ElementRegistersKeepLowBits, AddressRegistersKeepLowBits,
DataWindowWriteThenRead, WriteToCmdIssues): out of reset and idle, the first and the last word of DMEM,
one written and one not. -/
theorem witness_idle_writes :
    State.reset.rstN = true ∧ State.reset.status.busy = false ∧ 0x014 ∈ [0x014, 0x018, 0x01C, 0x020, 0x024] ∧
    0x034 ∈ [0x02C, 0x030, 0x034] ∧ 0 < State.reset.params.memWords ∧ 4095 < State.reset.params.memWords ∧
    State.reset.params.memLog2 ≤ 14 ∧ 0x000 ∈ registerOffsets ∧ 0x000 ≠ 0x014 ∧
    { State.reset with dmem := words [7] }.dmem.lookup 0 = some 7#32 ∧
    { State.reset with dmem := words [7] }.dmem.lookup 4095 = none := by decide

/-- WritesWhileBusyAreDropped: a command in flight, a register and the last word of DMEM, and an idle block
for the read-only registers; also the premise of
StatusIsWriteOneToClear and of the first half of InterruptIsDoneAndEnabled. -/
theorem witness_WritesWhileBusyAreDropped :
    busyState.rstN = true ∧ busyState.status.busy = true ∧
    0x010 ∈ [0x010, 0x014, 0x018, 0x01C, 0x020, 0x024, 0x02C, 0x030, 0x034] ∧
    4095 < busyState.params.memWords ∧ 4095 < 2 ^ 14 ∧ 0x13FFC = 0x10000 + 4 * 4095 ∧
    0x028 ∈ [0x000, 0x004, 0x028] ∧ 0x000 ∈ [0x000, 0x004, 0x028] ∧
    State.reset.rstN = true ∧ State.reset.status.busy = false := by decide

/-- ReadsWhileBusy: `dcount` is 2 here; the words 3 and 6 lie just outside the destination region, 4 and 5
inside. With an illegal word in CMD it is 0. -/
theorem witness_ReadsWhileBusy :
    busyState.rstN = true ∧ busyState.status.busy = true ∧ 6 < busyState.params.memWords ∧
    busyState.params.memLog2 ≤ 14 ∧ decode busyState.cmd = .ok (.pmul1 1) ∧ 2 = 2 ^ 1 ∧
    3 < busyState.dst.toNat ∧ busyState.dst.toNat + 2 ≤ 6 ∧ busyState.dmem.lookup 3 = some 4#32 ∧
    busyState.dst.toNat ≤ 4 ∧ 5 < busyState.dst.toNat + 2 ∧
    decode { busyState with cmd := 0x20#32 }.cmd = .error .reservedBits := by decide

/-- WaitEnds: no poll before the completion, and two. -/
theorem witness_WaitEnds :
    busyState.rstN = true ∧ busyState.status.busy = true ∧
    { busyState with inputs := [.unitTurn, hostRd .status] }.inputs = hostWait 0 ++ [] ∧
    { busyState with
      inputs := [hostRd .status, hostRd .status, .unitTurn, hostRd .status, hostRd .result] }.inputs =
      hostWait 2 ++ [hostRd .result] := by decide

/-- ResetPinResetsTheBlock: a command in flight, the pin sampled at either level. -/
theorem witness_ResetPinResetsTheBlock :
    { busyState with inputs := [.resetPin false] }.inputs = .resetPin false :: [] ∧
    { busyState with inputs := [.resetPin true] }.inputs = .resetPin true :: [] := by decide

/-- ResetMeetsTheInvariant, ResetStateReadsTheResetColumn: the defaults, and both ends of every range. -/
theorem witness_ResetMeetsTheInvariant :
    Params.default.Valid ∧ ({ elemW := 2, memLog2 := 1, logNMax := 0 } : Params).Valid ∧
    ({ elemW := 32, memLog2 := 14, logNMax := 15 } : Params).Valid := by decide

/-- EveryStepKeepsTheInvariant: a command in flight over written words. -/
theorem witness_EveryStepKeepsTheInvariant : busyState.Inv ∧ ∃ t, step busyState = .next t := by
  refine ⟨⟨by decide, by decide, by decide, by decide, by decide, by decide, by decide,
    ⟨by decide, by decide, by decide⟩, ⟨by decide, fun e w h => ?_⟩, fun h => absurd h (by decide)⟩, ⟨_, rfl⟩⟩
  have hw : w.toNat < 2 ^ 32 := w.isLt
  refine ⟨?_, hw⟩
  by_contra he
  replace he : 4096 ≤ e := Nat.le_of_not_lt he
  have : busyState.dmem.lookup e = none := by
    have hd : busyState.dmem = [(0, 1#32), (1, 2#32), (2, 3#32), (3, 4#32)] := by decide
    rw [hd]
    simp only [Memory.lookup_cons, Memory.lookup_nil]
    repeat' (rw [if_neg (by omega)])
  simp [this] at h

/-- A block held in reset meets the invariant too. -/
theorem witness_held_in_reset : (State.reset.sampleReset false).rstN = false ∧
    (State.reset.sampleReset false).AtReset := ⟨rfl, rfl⟩

end Sys2Proof.Machine.Tests
end

namespace Sys2Proof.Machine

/-! ### The reset state meets the invariant -/

/-- STATUS = 0: nothing in flight, ERR = 0 with ECODE 0 (10_state R26). -/
theorem Status.reset_inv : Status.reset.Inv where
  busy_clear hbusy := absurd hbusy Bool.false_ne_true
  err_iff := iff_of_true rfl rfl
  ecode_le := Nat.zero_le 6

/-- A memory with no word written (70_reset_and_hazards R231). -/
theorem Memory.inv_nil (p : Params) : Memory.Inv p [] where
  canonical := rfl
  in_range e w hw := by simp at hw

/-- A register that holds 0 has ELEM_W bits, whatever ELEM_W is. -/
theorem zero_fits (p : Params) : (0#32).toNat < 2 ^ p.elemW := Nat.two_pow_pos _

/-- STATUS, DMEM and the registers each meet their part, and the state is the reset state whatever the pin. -/
theorem State.resetWith_inv {p : Params} (hp : p.Valid) : (State.resetWith p).Inv where
  params_valid := hp
  mod_fits := zero_fits p
  root_fits := zero_fits p
  rootInv_fits := zero_fits p
  opa_fits := zero_fits p
  opb_fits := zero_fits p
  result_fits := zero_fits p
  status_inv := Status.reset_inv
  dmem_inv := Memory.inv_nil p
  held_in_reset _ := rfl

/-- Settles O57, part by part of the invariant (`State.resetWith_inv`). -/
theorem resetMeetsTheInvariant : Obligations.ResetMeetsTheInvariant :=
  fun _ hp => State.resetWith_inv hp

end Sys2Proof.Machine

namespace Sys2Proof.Machine

/-! ### What the host can change while a command is in flight -/

/-- The state with the fields replaced that a host access can change while BUSY = 1: IE, STATUS, the
response, and the model's count of draws (10_state R41, R42). -/
def State.touched (s : State) (ie : Bool) (st : Status) (resp : Option BusResponse) (draws : Nat) : State :=
  { s with ie := ie, status := st, response := resp, draws := draws }

/-- The host has only touched the block on the way from `s` to `t`, and the command is still in flight. -/
def State.TouchedTo (s t : State) : Prop :=
  ∃ ie st resp draws, st.busy = true ∧ t = s.touched ie st resp draws

/-- One access while a command is in flight: the cases of an idle block cannot happen. -/
theorem hostAccess_touches {s : State} (a : HostAccess) (hbusy : s.status.busy = true) :
    s.TouchedTo (s.hostAccess a) := by
  have idle : s.status.busy ≠ false := by simp [hbusy]
  rcases hostAccess_outcome s a with ⟨r, h⟩ | ⟨-, h⟩
  · exact ⟨_, _, _, _, hbusy, h⟩
  · rcases h with ⟨w, h⟩ | ⟨b, h⟩ | ⟨v, h⟩ | ⟨-, h⟩ | ⟨hidle, -⟩ | ⟨hidle, -⟩
    · exact ⟨_, _, _, _, hbusy, h⟩
    · exact ⟨_, _, _, _, hbusy, h⟩
    · exact ⟨_, s.status.writeOneToClear v, _, _, hbusy, h⟩
    · exact ⟨_, s.status.withHazard, _, _, hbusy, h⟩
    · exact absurd hidle idle
    · exact absurd hidle idle

theorem State.TouchedTo.trans {s t u : State} (hst : s.TouchedTo t) (htu : t.TouchedTo u) :
    s.TouchedTo u := by
  obtain ⟨_, _, _, _, -, rfl⟩ := hst
  obtain ⟨ie, st, resp, draws, hbusy, rfl⟩ := htu
  exact ⟨ie, st, resp, draws, hbusy, rfl⟩

theorem State.TouchedTo.busy {s t : State} (h : s.TouchedTo t) : t.status.busy = true := by
  obtain ⟨_, _, _, _, hbusy, rfl⟩ := h
  exact hbusy

theorem State.TouchedTo.cmd {s t : State} (h : s.TouchedTo t) : t.cmd = s.cmd := by
  obtain ⟨_, _, _, _, -, rfl⟩ := h
  rfl

/-- Any number of accesses, by induction on the list. -/
theorem hostAccesses_touches (l : List HostAccess) {s : State} (hbusy : s.status.busy = true) :
    s.TouchedTo (s.hostAccesses l) := by
  induction l generalizing s with
  | nil => exact ⟨_, _, _, _, hbusy, rfl⟩
  | cons a rest ih =>
    have first := hostAccess_touches a hbusy
    exact first.trans (ih first.busy)

/-! ### The completion step does not see what the host touched -/

/-- Two completions agree on everything the command computes and reports (10_state R40). -/
structure State.SameOutcome (t t' : State) : Prop where
  result : t'.result = t.result
  dmem : t'.dmem = t.dmem
  err : t'.status.err = t.status.err
  ecode : t'.status.ecode = t.status.ecode
  cmd : t'.cmd = t.cmd

section
variable {s : State} {ie : Bool} {st : Status} {resp : Option BusResponse} {draws : Nat}

theorem completeError_touched (c : CmdError) :
    (s.completeError c).SameOutcome ((s.touched ie st resp draws).completeError c) :=
  ⟨rfl, rfl, rfl, rfl, rfl⟩

theorem completeOk_touched : s.completeOk.SameOutcome (s.touched ie st resp draws).completeOk :=
  ⟨rfl, rfl, rfl, rfl, rfl⟩

theorem runScalar_touched (check : Option CmdError) (v : Nat) :
    (s.runScalar check v).SameOutcome ((s.touched ie st resp draws).runScalar check v) := by
  cases check with
  | some c => exact completeError_touched c
  | none => exact completeOk_touched (s := s.setResult v)

variable {f : VectorForm} {k : Nat}

theorem sourceA_touched (hA : s.Written s.srca.toNat (f.words k)) :
    (s.touched ie st resp draws).sourceA f k = s.sourceA f k :=
  State.memRead_of_written hA draws s.draws

theorem sourceB_touched (hB : f.readsB = true → s.Written s.srcb.toNat (f.words k)) :
    (s.touched ie st resp draws).sourceB f k = s.sourceB f k := by
  by_cases hreads : f.readsB = true
  · simp only [State.sourceB, hreads, if_true]
    exact State.memRead_of_written (hB hreads) (draws + 1) (s.draws + 1)
  · simp only [State.sourceB, hreads, if_false, Bool.false_eq_true]

/-- The checks read registers alone, and the source words, all written since reset, read the same in every
draw. -/
theorem runVector_touched (value : List Nat → List Nat → List Nat)
    (hA : s.Written s.srca.toNat (f.words k))
    (hB : f.readsB = true → s.Written s.srcb.toNat (f.words k)) :
    (s.runVector f k value).SameOutcome ((s.touched ie st resp draws).runVector f k value) := by
  have hcheck : (s.touched ie st resp draws).vectorCheck f k = s.vectorCheck f k := rfl
  rcases s.runVector_cases f k value with ⟨c, hc, h⟩ | ⟨hc, h⟩
  · rw [h, State.runVector_failed value (hcheck.trans hc)]
    exact completeError_touched c
  · rw [h, State.runVector_ready value (hcheck.trans hc), sourceA_touched hA, sourceB_touched hB]
    exact ⟨rfl, rfl, rfl, rfl, rfl⟩

end

/-- A command whose source words were written has one outcome, whatever the host touched. -/
theorem exec_touched (i : Instr) {s u : State} (hu : s.TouchedTo u) (hw : s.SourcesWritten i) :
    ∃ t t', exec i s = .next t ∧ exec i u = .next t' ∧ t.SameOutcome t' := by
  obtain ⟨ie, st, resp, draws, -, rfl⟩ := hu
  cases i with
  | nop k => exact ⟨_, _, rfl, rfl, completeOk_touched⟩
  | madd k | msub k | mmul k | mpow k | minv k => exact ⟨_, _, rfl, rfl, runScalar_touched _ _⟩
  | ntt1 k | intt1 k | ntt2 k | intt2 k | pmul1 k | pmul2 k | convs k | convf k =>
    obtain ⟨hA, hB⟩ := hw
    exact ⟨_, _, rfl, rfl, runVector_touched _ hA hB⟩

/-- The completion step of a legal word is its command. -/
theorem State.completeCommand_of_decode {s : State} {i : Instr} (h : decode s.cmd = .ok i) :
    s.completeCommand = exec i s := by
  simp only [State.completeCommand, h]

/-- Settles O43: the accesses only touch the state (`hostAccesses_touches`, by induction on their list), and
the command's completion does not see what they touched (`exec_touched`). -/
theorem resultIsFixedAtIssue : Obligations.ResultIsFixedAtIssue := by
  intro s t t' i l hbusy _ hdecode hwritten ht ht'
  have touches := hostAccesses_touches l hbusy
  obtain ⟨u, u', hu, hu', same⟩ := exec_touched i touches hwritten
  rw [State.completeCommand_of_decode hdecode, hu] at ht
  rw [State.completeCommand_of_decode (touches.cmd ▸ hdecode), hu'] at ht'
  cases ht
  cases ht'
  exact ⟨same.result, same.dmem, same.err, same.ecode, same.cmd⟩

/-! ### Writes to registers while idle -/

@[simp] theorem State.writeIdleReg_rstN (s : State) (r : Reg) (v : Word) :
    (s.writeIdleReg r v).rstN = s.rstN := by
  cases r <;> rfl

@[simp] theorem State.writeIdleReg_dmem (s : State) (r : Reg) (v : Word) :
    (s.writeIdleReg r v).dmem = s.dmem := by
  cases r <;> rfl

/-! ### Every update keeps the invariant -/

theorem Status.Inv.issued (st : Status) : st.issued.Inv where
  busy_clear _ := ⟨rfl, rfl⟩
  err_iff := iff_of_true rfl rfl
  ecode_le := Nat.zero_le 6

theorem Status.Inv.completedOk (st : Status) : st.completedOk.Inv where
  busy_clear hbusy := absurd hbusy Bool.false_ne_true
  err_iff := iff_of_true rfl rfl
  ecode_le := Nat.zero_le 6

/-- Every error has one of the codes 1 to 6 (60_exceptions R200). -/
theorem CmdError.code_bounds (c : CmdError) : c.code ≠ 0#4 ∧ c.code.toNat ≤ 6 := by
  cases c <;> decide

theorem Status.Inv.completedError (st : Status) (c : CmdError) : (st.completedError c).Inv where
  busy_clear hbusy := absurd hbusy Bool.false_ne_true
  err_iff := iff_of_false (by simp) (CmdError.code_bounds c).1
  ecode_le := (CmdError.code_bounds c).2

theorem Status.Inv.withHazard {st : Status} (h : st.Inv) : st.withHazard.Inv := { h with }

/-- ERR and ECODE are cleared together, and a bit already 0 stays 0 (10_state R26). -/
theorem Status.Inv.writeOneToClear {st : Status} (h : st.Inv) (v : Word) : (st.writeOneToClear v).Inv where
  busy_clear hbusy := by
    obtain ⟨hdone, herr⟩ := h.busy_clear hbusy
    simp [Status.writeOneToClear, hdone, herr]
  err_iff := by
    simp only [Status.writeOneToClear]
    split
    · exact iff_of_true rfl rfl
    · exact h.err_iff
  ecode_le := by
    simp only [Status.writeOneToClear]
    split
    · exact Nat.zero_le 6
    · exact h.ecode_le

/-- Storing an ELEM_W-bit word at an address of DMEM (20_memory R53). -/
theorem Memory.Inv.write {p : Params} {m : Memory} (h : m.Inv p) {e : Nat} {v : Word}
    (he : e < p.memWords) (hv : v.toNat < 2 ^ p.elemW) : (m.write e v).Inv p where
  canonical := Memory.wf_write e v h.canonical
  in_range x w hw := by
    rw [Memory.lookup_write] at hw
    split at hw
    · cases hw
      exact ⟨‹x = e› ▸ he, hv⟩
    · exact h.in_range x w hw

theorem ofNat_toNat_lt {v bound : Nat} (h : v < bound) : (BitVec.ofNat 32 v).toNat < bound := by
  rw [BitVec.toNat_ofNat]
  exact (Nat.mod_le ..).trans_lt h

/-- Storing a list in a region of DMEM (20_memory R56), one word after the other. -/
theorem Memory.Inv.writeList {p : Params} (l : List Nat) {m : Memory} (h : m.Inv p) {e : Nat}
    (he : e + l.length ≤ p.memWords) (hl : ∀ x ∈ l, x < 2 ^ p.elemW) : (m.writeList e l).Inv p := by
  induction l generalizing m e with
  | nil => exact h
  | cons v rest ih =>
    rw [List.length_cons] at he
    have hv : v < 2 ^ p.elemW := hl v List.mem_cons_self
    have hrest : ∀ x ∈ rest, x < 2 ^ p.elemW := fun x hx => hl x (List.mem_cons_of_mem v hx)
    exact ih (h.write (by omega) (ofNat_toNat_lt hv)) (by omega) hrest

section
variable {s : State} (h : s.Inv)
include h

/-- The response is no register of the block, so a block held in reset is still in the reset state. -/
theorem State.Inv.respond (r : BusResponse) : (s.respond r).Inv :=
  { h with held_in_reset := fun hheld => congrArg (State.respond · r) (h.held_in_reset hheld) }

theorem State.Inv.setInputs (l : List Input) : (s.setInputs l).Inv :=
  { h with held_in_reset := fun hheld => congrArg (State.setInputs · l) (h.held_in_reset hheld) }

/-- A sample of 0 puts every register at its reset value; one of 1 releases the block (70_reset R230). -/
theorem State.Inv.sampleReset (level : Bool) : (s.sampleReset level).Inv := by
  cases level with
  | true => exact { h with held_in_reset := fun hheld => absurd hheld (by simp [State.sampleReset]) }
  | false => exact { State.resetWith_inv h.params_valid with held_in_reset := fun _ => rfl }

end

/-! ### Out of reset

An update that keeps every part of the invariant but `held_in_reset` keeps the whole. -/

section
variable {s : State} (h : s.Inv) (hr : s.rstN = true)
include h hr

theorem State.Inv.setStatus {st : Status} (hst : st.Inv) : (s.setStatus st).Inv :=
  { h with status_inv := hst, held_in_reset := by simp [hr] }

theorem State.Inv.setIe (b : Bool) : ({ s with ie := b } : State).Inv :=
  { h with held_in_reset := by simp [hr] }

theorem State.Inv.takeDraws (n : Nat) : (s.takeDraws n).Inv :=
  { h with held_in_reset := by simp [hr] }

theorem State.Inv.setResult {v : Nat} (hv : v < 2 ^ s.params.elemW) : (s.setResult v).Inv :=
  { h with result_fits := ofNat_toNat_lt hv, held_in_reset := by simp [hr] }

theorem State.Inv.setDmem {m : Memory} (hm : m.Inv s.params) : (s.setDmem m).Inv :=
  { h with dmem_inv := hm, held_in_reset := by simp [hr] }

/-- An element register keeps the low ELEM_W bits of a write (10_state R35), and CMD issues a command. -/
theorem State.Inv.writeIdleReg (r : Reg) (v : Word) : (s.writeIdleReg r v).Inv := by
  have fits := elemBits_lt s.params v
  have held : (s.writeIdleReg r v).rstN = false → (s.writeIdleReg r v).AtReset := by
    simp [hr]
  cases r with
  | id | param | ctrl | status | result => exact h
  | cmd => exact { h with status_inv := Status.Inv.issued _, held_in_reset := held }
  | mod => exact { h with mod_fits := fits, held_in_reset := held }
  | root => exact { h with root_fits := fits, held_in_reset := held }
  | rootInv => exact { h with rootInv_fits := fits, held_in_reset := held }
  | opa => exact { h with opa_fits := fits, held_in_reset := held }
  | opb => exact { h with opb_fits := fits, held_in_reset := held }
  | srca | srcb | dst => exact { h with held_in_reset := held }

end

/-! ### A completion and a host access keep the invariant -/

/-- The values of a vector command have ELEM_W bits, as MOD and the words it reads do (20_memory R56). -/
theorem State.Inv.values_fit {s : State} (h : s.Inv) {f : VectorForm} {k : Nat} {vals : List Nat}
    (hv : s.ValuesFit f k vals) : ∀ x ∈ vals, x < 2 ^ s.params.elemW := by
  have hsource : ∀ x ∈ s.sourceA f k, x < 2 ^ s.params.elemW := by
    intro x hx
    obtain ⟨j, -, rfl⟩ := List.mem_map.1 hx
    exact State.readWord_lt _ _ fun e w hw => (h.dmem_inv.in_range e w hw).2
  exact hv.2 _ h.mod_fits.le hsource

/-- The destination region of a command that passed its checks lies in DMEM (60_exceptions R204). -/
theorem State.dst_in_range {s : State} {f : VectorForm} {k : Nat} (h : s.vectorCheck f k = none) :
    s.dst.toNat + f.words k ≤ s.params.memWords := by
  obtain ⟨-, -, ⟨-, -, hdst⟩, -⟩ := (s.vectorCheck_eq_none_iff f k).1 h
  exact hdst

theorem State.Inv.execOutcome {i : Instr} {s t : State} (h : s.Inv) (hr : s.rstN = true)
    (ho : ExecOutcome i s t) : t.Inv := by
  rcases ho with ⟨c, rfl⟩ | ⟨-, rfl⟩ | ⟨-, v, hv, rfl⟩ | ⟨f, vals, -, hcheck, hvals, rfl⟩
  · exact h.setStatus hr (Status.Inv.completedError _ c)
  · exact h.setStatus hr (Status.Inv.completedOk _)
  · exact (h.setResult hr (hv.trans h.mod_fits)).setStatus hr (Status.Inv.completedOk _)
  · have hdst : s.dst.toNat + vals.length ≤ s.params.memWords := hvals.1 ▸ State.dst_in_range hcheck
    have hmem := h.dmem_inv.writeList vals hdst (h.values_fit hvals)
    exact ((h.setDmem hr hmem).takeDraws hr 2).setStatus hr (Status.Inv.completedOk _)

theorem State.Inv.completeCommand {s t : State} (h : s.Inv) (hr : s.rstN = true)
    (ht : s.completeCommand = .next t) : t.Inv := by
  obtain ⟨t', ht', hcases⟩ := s.completeCommand_cases
  cases ht.symm.trans ht'
  rcases hcases with ⟨_, -, rfl⟩ | ⟨i, -, ho⟩
  · exact h.setStatus hr (Status.Inv.completedError _ _)
  · exact h.execOutcome hr ho

theorem State.Inv.hostAccess {s : State} (h : s.Inv) (a : HostAccess) : (s.hostAccess a).Inv := by
  rcases hostAccess_outcome s a with ⟨r, ht⟩ | ⟨hr, ho⟩
  · exact ht ▸ h.respond r
  · rcases ho with ⟨w, ht⟩ | ⟨b, ht⟩ | ⟨v, ht⟩ | ⟨-, ht⟩ | ⟨-, r, v, ht⟩ | ⟨-, e, v, he, ht⟩
    · exact ht ▸ (h.takeDraws hr 1).respond _
    · exact ht ▸ (h.setIe hr b).respond _
    · exact ht ▸ (h.setStatus hr (h.status_inv.writeOneToClear v)).respond _
    · exact ht ▸ (h.setStatus hr h.status_inv.withHazard).respond _
    · exact ht ▸ (h.writeIdleReg hr r v).respond _
    · exact ht ▸ (h.setDmem hr (h.dmem_inv.write he (elemBits_lt ..))).respond _

/-- Settles O58, by the cases of a step (`step_cases`): nothing, a completion, a host access or a sample of
`rst_n`, in the state with the input taken off the list. -/
theorem everyStepKeepsTheInvariant : Obligations.EveryStepKeepsTheInvariant := by
  intro s t h ht
  obtain ⟨s₀, t', hs₀, ht', hcases⟩ := step_cases s
  cases ht.symm.trans ht'
  have h₀ : s₀.Inv := hs₀ ▸ h.setInputs s₀.inputs
  rcases hcases with rfl | ⟨-, hr, hcomplete⟩ | ⟨a, rfl⟩ | ⟨level, rfl⟩
  · exact h₀
  · exact h₀.completeCommand hr hcomplete
  · exact h₀.hostAccess a
  · exact h₀.sampleReset level

/-! ### The step and the unit's turn -/

theorem State.unitTurn_inFlight {s : State} (hbusy : s.status.busy = true) (hr : s.rstN = true) :
    s.unitTurn = s.completeCommand := if_pos ⟨hbusy, hr⟩

theorem State.unitTurn_idle {s : State} (hidle : s.status.busy = false) : s.unitTurn = .next s :=
  if_neg (by simp [hidle])

theorem step_nil {s : State} (h : s.inputs = []) : step s = s.unitTurn := by
  simp only [step, h]

theorem step_unitTurn {s : State} {rest : List Input} (h : s.inputs = .unitTurn :: rest) :
    step s = (s.setInputs rest).unitTurn := by
  simp only [step, h]

theorem step_host {s : State} {a : HostAccess} {rest : List Input} (h : s.inputs = .host a :: rest) :
    step s = .next ((s.setInputs rest).hostAccess a) := by
  simp only [step, h]

theorem step_resetPin {s : State} {level : Bool} {rest : List Input}
    (h : s.inputs = .resetPin level :: rest) : step s = .next ((s.setInputs rest).sampleReset level) := by
  simp only [step, h]

/-- Settles O5, input by input; a legal word's completion step is its command. -/
theorem stepRunsTheNextInput : Obligations.StepRunsTheNextInput := by
  intro s rest
  have completes : s.status.busy = true → s.rstN = true →
      (s.inputs = [] → step s = s.completeCommand) ∧
      (s.inputs = .unitTurn :: rest → step s = (s.setInputs rest).completeCommand) := fun hbusy hr =>
    ⟨fun h => (step_nil h).trans (State.unitTurn_inFlight hbusy hr),
      fun h => (step_unitTurn h).trans (State.unitTurn_inFlight hbusy hr)⟩
  refine ⟨completes, fun i hbusy hr hdecode => ?_, fun a h => step_host h, fun level h => step_resetPin h⟩
  obtain ⟨hnil, hturn⟩ := completes hbusy hr
  exact ⟨fun h => (hnil h).trans (State.completeCommand_of_decode hdecode),
    fun h => (hturn h).trans (State.completeCommand_of_decode (s := s.setInputs rest) hdecode)⟩

/-- Settles O6: `withFetchWord` issues the word with the unit's turn next, and that turn completes it. -/
theorem placedWordRunsNext : Obligations.PlacedWordRunsNext := by
  intro s w i hdecode
  have hword : BitVec.ofNat 32 (w.toNat % 2 ^ 32) = w := by
    rw [Nat.mod_eq_of_lt w.isLt, BitVec.ofNat_toNat, BitVec.setWidth_eq]
  have hissued : (s.withFetchWord 32 w.toNat).setInputs s.inputs =
      { s with cmd := w, rstN := true, status := s.status.issued } := by
    rw [State.withFetchWord, hword]
    rfl
  rw [step_unitTurn rfl, hissued, State.unitTurn_inFlight rfl rfl]
  exact State.completeCommand_of_decode hdecode

/-- What every completion does, of a legal word or not (10_state R40, 60_exceptions R209): BUSY is cleared and
DONE set; CMD, IE and the inputs to come stay. -/
structure State.Completed (s t : State) : Prop where
  busy : t.status.busy = false
  done : t.status.done = true
  cmd : t.cmd = s.cmd
  ie : t.ie = s.ie
  inputs : t.inputs = s.inputs

theorem completed_of_execOutcome {i : Instr} {s t : State} (h : ExecOutcome i s t) : s.Completed t := by
  rcases h with ⟨c, rfl⟩ | ⟨-, rfl⟩ | ⟨-, v, -, rfl⟩ | ⟨f, vals, -, -, -, rfl⟩ <;>
    exact ⟨rfl, rfl, rfl, rfl, rfl⟩

theorem State.completeCommand_completed (s : State) : ∃ t, s.completeCommand = .next t ∧ s.Completed t := by
  obtain ⟨t, ht, hcases⟩ := s.completeCommand_cases
  refine ⟨t, ht, ?_⟩
  rcases hcases with ⟨_, -, rfl⟩ | ⟨i, -, ho⟩
  · exact ⟨rfl, rfl, rfl, rfl, rfl⟩
  · exact completed_of_execOutcome ho

/-- Settles O9: with BUSY = 1 the turn is the completion step, which `State.completeCommand_completed`
describes; with BUSY = 0 it does nothing. -/
theorem unitTurnCompletesTheCommand : Obligations.UnitTurnCompletesTheCommand := by
  intro s rest hturn
  rw [step_unitTurn hturn]
  refine ⟨fun hbusy hr => ?_, fun hidle => State.unitTurn_idle hidle⟩
  obtain ⟨t, ht, hc⟩ := (s.setInputs rest).completeCommand_completed
  have hinFlight := State.unitTurn_inFlight (s := s.setInputs rest) hbusy hr
  exact ⟨t, hinFlight.trans ht, hc.busy, hc.done, hc.cmd, hc.inputs⟩

/-! ### Reads of registers -/

theorem ctrlWord_eq (ie : Bool) : ctrlWord ie = BitVec.ofNat 32 ie.toNat := by
  cases ie <;> rfl

/-- What the host reads at each register offset (10_state R22). -/
def State.registerTable (s : State) : List (Nat × Word) := Reg.all.map fun r => (r.offset, s.readReg r)

theorem registerOffsets_eq : registerOffsets = Reg.all.map Reg.offset := rfl

theorem hostAccess_busRead_of_mem_table {s : State} (hr : s.rstN = true) {off : Nat} {v : Word}
    (h : (off, v) ∈ s.registerTable) : s.hostAccess (busRead off) = s.respond (.data v) := by
  obtain ⟨r, -, hpair⟩ := List.mem_map.1 h
  cases hpair
  exact hostAccess_busRead_reg r hr

/-- Settles O44: the listed values are those of `State.readReg`. -/
theorem registerMapReads : Obligations.RegisterMapReads := by
  intro s hr off v hmem
  refine hostAccess_busRead_of_mem_table hr ?_
  simpa only [State.registerTable, Reg.all, List.map, Reg.offset, State.readReg, idWord, paramWord_eq,
    ctrlWord_eq, Status.toWord_eq, BitVec.ofNat_toNat] using hmem

/-- PARAM needs no reduction when the parameters are in their ranges (10_state R24). -/
theorem paramWord_of_valid {p : Params} (hp : p.Valid) :
    paramWord p = BitVec.ofNat 32 (p.elemW + 256 * p.logNMax + 65536 * p.memLog2) := by
  obtain ⟨⟨-, hw⟩, ⟨-, hm⟩, hn⟩ := hp
  rw [paramWord_eq, Nat.mod_eq_of_lt (by omega), Nat.mod_eq_of_lt (by omega), Nat.mod_eq_of_lt (by omega)]

/-- Settles O56: the reset column is what `State.readReg` gives in the reset state. -/
theorem resetStateReadsTheResetColumn : Obligations.ResetStateReadsTheResetColumn := by
  intro p hp
  refine ⟨fun off v hmem => ?_, rfl, rfl, fun _ => rfl⟩
  have hctrl : ctrlWord false = 0#32 := by decide
  have hstatus : Status.reset.toWord = 0#32 := by decide
  have htable : (off, v) ∈ (State.resetWith p).registerTable := by
    simpa only [State.registerTable, Reg.all, List.map, Reg.offset, State.readReg, State.resetWith, idWord,
      paramWord_of_valid hp, hctrl, hstatus, BitVec.setWidth_zero] using hmem
  rw [hostAccess_busRead_of_mem_table rfl htable]
  rfl

/-! ### Writes of registers -/

/-- The registers whose write is dropped while BUSY = 1 (10_state R41). -/
def guardedRegs : List Reg := [.cmd, .mod, .root, .rootInv, .opa, .opb, .srca, .srcb, .dst]

theorem State.writeTarget_guarded (s : State) {r : Reg} (h : r ∈ guardedRegs) (v : Word) :
    s.writeTarget (.reg r) v = if s.status.busy then s.dropWrite else s.writeIdleReg r v := by
  cases r with
  | id | param | ctrl | status | result => exact absurd h (by decide)
  | cmd | mod | root | rootInv | opa | opb | srca | srcb | dst => rfl

/-- A write to a register other than CMD changes what that register reads, and no other one. -/
theorem State.readReg_writeIdleReg_other (s : State) {r r' : Reg} (v : Word) (hcmd : r ≠ .cmd)
    (hne : r' ≠ r) : (s.writeIdleReg r v).readReg r' = s.readReg r' := by
  cases r with
  | cmd => exact absurd rfl hcmd
  | id | param | ctrl | status | result => rfl
  | mod | root | rootInv | opa | opb | srca | srcb | dst => cases r' <;> trivial

/-- An accepted write to an operand register of an idle block. -/
theorem operandWrite_idle {s : State} {r : Reg} (hr : s.rstN = true) (hidle : s.status.busy = false)
    (hmem : r ∈ guardedRegs) (hcmd : r ≠ .cmd) (v : Word) :
    let t := s.hostAccess (busWrite r.offset v)
    t.response = some .written ∧ t.dmem = s.dmem ∧
    (t.hostAccess (busRead r.offset)).response = some (.data ((s.writeIdleReg r v).readReg r)) ∧
    ∀ off' ∈ registerOffsets, off' ≠ r.offset →
      (t.hostAccess (busRead off')).response = (s.hostAccess (busRead off')).response := by
  intro t
  have ht : t = (s.writeIdleReg r v).respond .written := by
    simp only [t, hostAccess_busWrite_reg r v hr, s.writeTarget_guarded hmem, hidle, if_false,
      Bool.false_eq_true]
  have htr : t.rstN = true := by simp [ht, hr]
  have hread : ∀ r', (t.hostAccess (busRead r'.offset)).response =
      some (.data ((s.writeIdleReg r v).readReg r')) := by
    intro r'
    rw [hostAccess_busRead_reg r' htr, ht]
    cases r' <;> rfl
  refine ⟨by rw [ht]; rfl, by simp [ht], hread r, fun off' hoff' hne => ?_⟩
  obtain ⟨r', -, rfl⟩ := List.mem_map.1 (registerOffsets_eq ▸ hoff')
  have hne' : r' ≠ r := fun heq => hne (heq ▸ rfl)
  rw [hread r', State.readReg_writeIdleReg_other s v hcmd hne', hostAccess_busRead_reg r' hr]
  rfl

/-- Settles O46, register by register (`operandWrite_idle`). -/
theorem elementRegistersKeepLowBits : Obligations.ElementRegistersKeepLowBits := by
  intro s v hr hidle off hoff
  have hregs : off ∈ [Reg.mod, .root, .rootInv, .opa, .opb].map Reg.offset := hoff
  obtain ⟨r, hmem, rfl⟩ := List.mem_map.1 hregs
  simp only [List.mem_cons, List.not_mem_nil, or_false] at hmem
  rcases hmem with rfl | rfl | rfl | rfl | rfl <;>
    exact operandWrite_idle hr hidle (by decide) (by decide) v

/-- Settles O47, register by register (`operandWrite_idle`). -/
theorem addressRegistersKeepLowBits : Obligations.AddressRegistersKeepLowBits := by
  intro s v hr hidle off hoff
  have hregs : off ∈ [Reg.srca, .srcb, .dst].map Reg.offset := hoff
  obtain ⟨r, hmem, rfl⟩ := List.mem_map.1 hregs
  have hlow : (v.setWidth 16).setWidth 32 = BitVec.ofNat 32 (v.toNat % 2 ^ 16) := by
    rw [← BitVec.toNat_setWidth, BitVec.ofNat_toNat]
  rw [← hlow]
  simp only [List.mem_cons, List.not_mem_nil, or_false] at hmem
  rcases hmem with rfl | rfl | rfl <;>
    exact operandWrite_idle hr hidle (by decide) (by decide) v

/-- Settles O49: a write to CMD of an idle block is the issue step. -/
theorem writeToCmdIssues : Obligations.WriteToCmdIssues := by
  intro s v hr hidle
  have hwrite : s.writeTarget (.reg .cmd) v = s.issue v := by
    rw [State.writeTarget_guarded s (by decide), hidle]
    rfl
  have h := hostAccess_busWrite_reg .cmd v hr
  rw [hwrite] at h
  exact h

/-! ### Writes while a command is in flight, and to CTRL and STATUS -/

theorem hostAccess_busWrite_reg_dropped {s : State} {r : Reg} (v : Word) (hr : s.rstN = true)
    (hbusy : s.status.busy = true) (h : r ∈ guardedRegs) :
    s.hostAccess (busWrite r.offset v) = s.dropWrite.respond .written := by
  rw [hostAccess_busWrite_reg r v hr, s.writeTarget_guarded h, hbusy, if_pos rfl]

theorem hostAccess_busWrite_word_dropped {s : State} {e : Nat} (v : Word) (hr : s.rstN = true)
    (hbusy : s.status.busy = true) (he : e < s.params.memWords) (hm : e < 2 ^ 14) :
    s.hostAccess (busWrite (0x10000 + 4 * e) v) = s.dropWrite.respond .written := by
  rw [hostAccess_busWrite_word v hr he hm, State.writeTarget, hbusy, if_pos rfl]

theorem hostAccess_busWrite_ctrl {s : State} (v : Word) (hr : s.rstN = true) :
    s.hostAccess (busWrite 0x008 v) = { s with ie := v.getLsbD 0, response := some .written } :=
  hostAccess_busWrite_reg .ctrl v hr

theorem hostAccess_busRead_ctrl {s : State} (hr : s.rstN = true) :
    s.hostAccess (busRead 0x008) = s.respond (.data (ctrlWord s.ie)) :=
  hostAccess_busRead_reg .ctrl hr

theorem hostAccess_busWrite_status {s : State} (v : Word) (hr : s.rstN = true) :
    s.hostAccess (busWrite 0x00C v) = (s.setStatus (s.status.writeOneToClear v)).respond .written :=
  hostAccess_busWrite_reg .status v hr

/-- STATUS after a write-one-to-clear, field by field. -/
theorem Status.writeOneToClear_eq (st : Status) (v : Word) : st.writeOneToClear v =
    { busy := st.busy, done := st.done && !v.getLsbD 1, err := st.err && !v.getLsbD 2,
      haz := st.haz && !v.getLsbD 3, ecode := if v.getLsbD 2 = true then 0#4 else st.ecode } := by
  have clear : ∀ x b : Bool, (if b = true then false else x) = (x && !b) := by decide
  simp only [Status.writeOneToClear, clear]

/-- Settles O51: the update of a write to STATUS (`Status.writeOneToClear_eq`). -/
theorem statusIsWriteOneToClear : Obligations.StatusIsWriteOneToClear := by
  intro s v hr
  rw [hostAccess_busWrite_status v hr, Status.writeOneToClear_eq]
  rfl

/-- Settles O50: the guarded registers and the words of DMEM drop the write, CTRL and STATUS take it, and the
read-only registers ignore it. -/
theorem writesWhileBusyAreDropped : Obligations.WritesWhileBusyAreDropped := by
  intro s v hr
  refine ⟨fun hbusy => ⟨?_, hostAccess_busWrite_ctrl v hr, ?_⟩, ?_⟩
  · rintro off (hoff | ⟨e, he, hm, rfl⟩)
    · have hregs : off ∈ guardedRegs.map Reg.offset := hoff
      obtain ⟨r, hmem, rfl⟩ := List.mem_map.1 hregs
      exact hostAccess_busWrite_reg_dropped v hr hbusy hmem
    · exact hostAccess_busWrite_word_dropped v hr hbusy he hm
  · rw [hostAccess_busWrite_status v hr, Status.writeOneToClear_eq]
    exact ⟨rfl, rfl⟩
  · intro off hoff
    have hregs : off ∈ [Reg.id, .param, .result].map Reg.offset := hoff
    obtain ⟨r, hmem, rfl⟩ := List.mem_map.1 hregs
    rw [hostAccess_busWrite_reg r v hr]
    simp only [List.mem_cons, List.not_mem_nil, or_false] at hmem
    rcases hmem with rfl | rfl | rfl <;> rfl

/-- Settles O52: `irq` by definition; a CTRL write and its readback; and a completion sets DONE and keeps IE. -/
theorem interruptIsDoneAndEnabled : Obligations.InterruptIsDoneAndEnabled := by
  refine ⟨fun _ => rfl, fun s v hr => ?_, fun s t ht => ?_⟩
  · rw [hostAccess_busWrite_ctrl v hr]
    refine ⟨rfl, rfl, ?_⟩
    have hlow : (v.getLsbD 0).toNat = v.toNat % 2 := by
      rw [BitVec.getLsbD, Nat.toNat_testBit, pow_zero, Nat.div_one]
    rw [hostAccess_busRead_ctrl, ← hlow, ← ctrlWord_eq]
    · rfl
    · exact hr
  · obtain ⟨t', ht', hc⟩ := s.completeCommand_completed
    cases ht.symm.trans ht'
    rw [State.irq, hc.done, hc.ie, Bool.true_and]

/-! ### Reads of DMEM while a command is in flight -/

theorem memWords_le {p : Params} (h : p.memLog2 ≤ 14) : p.memWords ≤ 2 ^ 14 :=
  Nat.pow_le_pow_right (by decide) h

/-- Settles O53: `dcount` is `destWords` of the word in CMD, and a read is one draw with the value that
`hostAccess_busRead_word` says. -/
theorem readsWhileBusy : Obligations.ReadsWhileBusy := by
  intro s e dcount hr hbusy he hlog hdcount
  have hdest : dcount = destWords s.cmd := by
    rw [hdcount, destWords]
    cases decode s.cmd with
    | error _ => rfl
    | ok i => cases i <;> rfl
  have hm : e < 2 ^ 14 := he.trans_le (memWords_le hlog)
  have hread := hostAccess_busRead_word hr he hm
  have hdst : s.inDestination e ↔ s.dst.toNat ≤ e ∧ e < s.dst.toNat + dcount := by rw [hdest]
  rw [hread]
  refine ⟨fun hout w hw => ?_, fun hlo hhi => ?_, rfl⟩
  · have hnot : ¬ s.inDestination e := by rw [hdst]; omega
    rw [if_neg fun h => hnot h.2, State.readWord_of_lookup hw]
    rfl
  · rw [if_pos ⟨hbusy, hdst.2 ⟨hlo, hhi⟩⟩]
    exact ⟨_, elemBits_lt .., rfl⟩

end Sys2Proof.Machine

namespace Sys2Proof.Machine

/-! ### What a command leaves unchanged -/

/-- Two regions of the same size with no address in common: an address of one lies outside the other. -/
theorem outside_of_not_meet {b₁ b₂ m e : Nat} (h : ¬ Meet b₁ b₂ m) (hlo : b₂ ≤ e) (hhi : e < b₂ + m) :
    e < b₁ ∨ b₁ + m ≤ e := by
  by_contra hin
  exact h ⟨e, by omega, by omega, hlo, hhi⟩

/-- When the checks of a vector command pass, an address outside its destination region or in one of its source
regions is not written: the source regions do not meet the destination (60_exceptions R205, 20_memory R68). -/
theorem State.outside_destination_of_vectorCheck {s : State} {f : VectorForm} {k e : Nat}
    (hcheck : s.vectorCheck f k = none)
    (he : (e < s.dst.toNat ∨ s.dst.toNat + f.words k ≤ e) ∨
      (s.srca.toNat ≤ e ∧ e < s.srca.toNat + f.words k) ∨
      (f.readsB = true ∧ s.srcb.toNat ≤ e ∧ e < s.srcb.toNat + f.words k)) :
    e < s.dst.toNat ∨ s.dst.toNat + f.words k ≤ e := by
  obtain ⟨-, -, -, ⟨hapartA, hapartB⟩, -⟩ := (s.vectorCheck_eq_none_iff f k).1 hcheck
  rcases he with hout | ⟨hlo, hhi⟩ | ⟨hreads, hlo, hhi⟩
  · exact hout
  · exact outside_of_not_meet hapartA hlo hhi
  · exact outside_of_not_meet (hapartB hreads) hlo hhi

/-- Settles O42, by the outcomes of `exec` (`outcome_of_exec`): an error, NOP, a scalar success, and a vector
success, which alone writes words, all of them in its destination region. -/
theorem commandsWriteOnlyTheirDestination : Obligations.CommandsWriteOnlyTheirDestination := by
  intro i s t hexec
  rcases outcome_of_exec hexec with
    ⟨c, rfl⟩ | ⟨-, rfl⟩ | ⟨hscalar, v, -, rfl⟩ | ⟨f, vals, hf, hcheck, ⟨hlen, -⟩, rfl⟩
  · exact ⟨rfl, fun hne => absurd rfl hne, fun _ => rfl, fun _ _ _ _ => rfl⟩
  · exact ⟨rfl, fun hne => absurd rfl hne, fun _ => rfl, fun _ _ _ _ => rfl⟩
  · exact ⟨rfl, fun _ => ⟨rfl, hscalar⟩, fun _ => rfl, fun _ _ _ _ => rfl⟩
  · refine ⟨rfl, fun hne => absurd rfl hne, ?_, fun f' hf' e he => ?_⟩
    · rintro (hnone | herr)
      · cases hf.symm.trans hnone
      · exact absurd herr Bool.false_ne_true
    · cases hf.symm.trans hf'
      have hout := State.outside_destination_of_vectorCheck hcheck he
      exact Memory.lookup_writeList_outside vals s.dmem (hlen ▸ hout)

/-! ### Bus errors -/

/-- While `rst_n` = 0 every access is rejected (70_reset_and_hazards R233). -/
theorem hostAccess_held_in_reset {s : State} (a : HostAccess) (hr : s.rstN = false) :
    s.hostAccess a = s.respond (if a.write then .writeError else .readError 0#32) := by
  unfold State.hostAccess
  rw [if_neg (by simp [hr])]
  split <;> rfl

/-- Settles O45: out of reset each of the four reasons makes the access one that is not accepted or one at an
unmapped offset (`hostAccess_rejected`). -/
theorem busErrorsChangeNothing : Obligations.BusErrorsChangeNothing := by
  refine fun s a => ⟨fun hr hreason => hostAccess_rejected hr ?_, fun hr => ?_⟩
  · rcases hreason with hsize | halign | ⟨hlo, hhi⟩ | hpast
    · exact .inl fun ⟨hword, _⟩ => hsize (BitVec.eq_of_toNat_eq hword)
    · exact .inl fun ⟨_, haligned⟩ => halign haligned
    · exact .inr (targetAt_unmapped_page hlo (Nat.lt_succ_of_le hhi))
    · exact .inr (targetAt_unmapped_window hpast)
  · refine ⟨_, ?_, hostAccess_held_in_reset a hr⟩
    cases a.write with
    | true => exact .inl rfl
    | false => exact .inr ⟨0#32, rfl⟩

/-! ### The data window of an idle block -/

/-- A word not written since reset reads as a free ELEM_W-bit value (70_reset_and_hazards R231). -/
theorem State.readWord_of_unwritten {s : State} {e : Nat} (h : s.dmem.lookup e = none) (draw : Nat) :
    s.readWord draw e = s.unwrittenWord draw e := by
  simp only [State.readWord, h]

section
variable {s : State} {e : Nat} (hr : s.rstN = true) (hidle : s.status.busy = false)
  (he : e < s.params.memWords) (hm : e < 2 ^ 14)
include hr hidle he hm

theorem hostAccess_busRead_word_idle : s.hostAccess (busRead (0x10000 + 4 * e)) =
    (s.takeDraws 1).respond (.data (s.readWord s.draws e)) := by
  rw [hostAccess_busRead_word hr he hm, if_neg (by simp [hidle])]

theorem hostAccess_busWrite_word_idle (v : Word) : s.hostAccess (busWrite (0x10000 + 4 * e) v) =
    (s.setDmem (s.dmem.write e (elemBits s.params v))).respond .written := by
  rw [hostAccess_busWrite_word v hr he hm, State.writeTarget, if_neg (by simp [hidle])]

end

/-- Settles O48: a read is one draw (`hostAccess_busRead_word_idle`) of a word of DMEM, and a write is one
write of DMEM (`hostAccess_busWrite_word_idle`). -/
theorem dataWindowWriteThenRead : Obligations.DataWindowWriteThenRead := by
  intro s v e hr hidle he hlog t
  have hm : e < 2 ^ 14 := he.trans_le (memWords_le hlog)
  have hread := hostAccess_busRead_word_idle hr hidle he hm
  have ht : t = (s.setDmem (s.dmem.write e (elemBits s.params v))).respond .written :=
    hostAccess_busWrite_word_idle hr hidle he hm v
  have hreadBack : t.hostAccess (busRead (0x10000 + 4 * e)) =
      (t.takeDraws 1).respond (.data (t.readWord t.draws e)) := by
    apply hostAccess_busRead_word_idle <;> simpa only [ht]
  have hwritten : t.dmem.lookup e = some (elemBits s.params v) := by simp [ht]
  refine ⟨fun w hw => ?_, fun hnone => ?_, ?_, ?_, fun e' hne => ?_, ?_⟩
  · rw [hread, State.readWord_of_lookup hw, State.respond_response]
  · rw [hread, State.readWord_of_unwritten hnone]
    exact ⟨_, elemBits_lt .., rfl⟩
  · rw [hread]
    rfl
  · rw [hreadBack, State.readWord_of_lookup hwritten]
    rfl
  · rw [ht]
    exact Memory.lookup_write_other s.dmem _ hne
  · rw [ht]
    rfl

end Sys2Proof.Machine

namespace Sys2Proof

open Machine Laws.EncodedFields

/-! ### The command word -/

theorem Instr.opcode_lt (i : Instr) : i.opcode < 16 := by
  cases i <;> simp [Instr.opcode]

/-- The opcode map, read forth and back (30_encoding R74). -/
@[simp] theorem decodeOpc_opcode (i : Instr) : decodeOpc i.opcode i.logN = some i := by
  cases i <;> rfl

/-- The fields of every encoded command, whatever its mnemonic (30_encoding R79). -/
theorem encode_fields (i : Instr) : Statement i := fun h =>
  fields_of_append i.logN h i.opcode (i.opcode_lt.trans (by decide))

theorem fieldLogN_lt (c : Word) : fieldLogN c < 16 := (c.extractLsb' 8 4).isLt

theorem fieldRsv0_eq_zero {c : Word} : fieldRsv0 c = 0 ↔ c.extractLsb' 5 3 = 0#3 :=
  bv3_toNat_eq_zero _

theorem fieldRsv1_eq_zero {c : Word} : fieldRsv1 c = 0 ↔ c.extractLsb' 12 20 = 0#20 :=
  bv20_toNat_eq_zero _

/-- The decoder gives a command exactly on a word with its reserved bits 0 and an assigned OPC (R78). -/
theorem decode_eq_ok_iff {c : Word} {i : Instr} : decode c = .ok i ↔
    fieldRsv0 c = 0 ∧ fieldRsv1 c = 0 ∧ decodeOpc (fieldOpc c) (fieldLogN c) = some i := by
  by_cases hrsv : fieldRsv0 c ≠ 0 ∨ fieldRsv1 c ≠ 0
  · rw [decode_reserved hrsv]
    exact iff_of_false nofun fun ⟨h0, h1, _⟩ => hrsv.elim (· h0) (· h1)
  · obtain ⟨h0, h1⟩ : fieldRsv0 c = 0 ∧ fieldRsv1 c = 0 := by simpa only [ne_eq, not_or, not_not] using hrsv
    rw [decode_unreserved h0 h1]
    cases decodeOpc (fieldOpc c) (fieldLogN c) <;> simp [h0, h1]

/-- The decoder refuses exactly the words with a reserved bit set or an unassigned OPC (R73, R75). -/
theorem decode_refuses_iff {c : Word} : (∃ e, decode c = .error e) ↔
    fieldRsv0 c ≠ 0 ∨ fieldRsv1 c ≠ 0 ∨ decodeOpc (fieldOpc c) (fieldLogN c) = none := by
  have hrefuse : (∃ e, decode c = .error e) ↔ ∀ i, decode c ≠ .ok i := by
    cases decode c <;> simp
  simp only [hrefuse, ne_eq, decode_eq_ok_iff, not_and_or, forall_or_left, Option.eq_none_iff_forall_ne_some]

/-- A decoded command has the OPC and the LOGN of its word (R78). -/
theorem opcode_logN_of_decode {c : Word} {i : Instr} (h : decode c = .ok i) :
    i.opcode = fieldOpc c ∧ i.logN = fieldLogN c := by
  obtain ⟨-, -, hmap⟩ := decode_eq_ok_iff.1 h
  exact decodeOpc_eq_some hmap

theorem wellFormed_of_decode {c : Word} {i : Instr} (h : decode c = .ok i) : i.WellFormed :=
  (opcode_logN_of_decode h).2.trans_lt (fieldLogN_lt c)

theorem decode_encode {i : Instr} (h : i.WellFormed) : decode (encode i) = .ok i := by
  obtain ⟨hopc, hlogN, h0, h1⟩ := encode_fields i h
  refine decode_eq_ok_iff.2 ⟨h0, h1, ?_⟩
  rw [hopc, hlogN, decodeOpc_opcode]

/-- A word that decodes is its four fields, two of them 0 and two of them those of its command (R70, R79). -/
theorem encode_of_decode {c : Word} {i : Instr} (h : decode c = .ok i) : encode i = c := by
  obtain ⟨h0, h1, -⟩ := decode_eq_ok_iff.1 h
  obtain ⟨hopc, hlogN⟩ := opcode_logN_of_decode h
  rw [encode, hopc, hlogN, fieldOpc, fieldLogN, BitVec.ofNat_toNat, BitVec.ofNat_toNat, BitVec.setWidth_eq,
    BitVec.setWidth_eq]
  conv_rhs => rw [word_eq_fields c, fieldRsv0_eq_zero.1 h0, fieldRsv1_eq_zero.1 h1]

/-- LOGN and OPC with the reserved bits between them, as a number. -/
theorem toNat_append_fields {k o : Nat} (hk : k < 2 ^ 4) (ho : o < 2 ^ 5) :
    (BitVec.ofNat 4 k ++ 0#3 ++ BitVec.ofNat 5 o).toNat = k <<< 8 ||| o := by
  simp only [BitVec.toNat_append, BitVec.toNat_ofNat, Nat.mod_eq_of_lt hk, Nat.mod_eq_of_lt ho, Nat.zero_mod,
    Nat.or_zero, ← Nat.shiftLeft_add]

theorem encode_eq_setWidth (i : Instr) :
    encode i = (BitVec.ofNat 4 i.logN ++ 0#3 ++ BitVec.ofNat 5 i.opcode).setWidth 32 := by
  apply BitVec.eq_of_toNat_eq
  rw [BitVec.toNat_setWidth_of_le (by decide)]
  refine (BitVec.toNat_append ..).trans ?_
  simp only [BitVec.toNat_append, BitVec.toNat_ofNat, Nat.zero_mod, Nat.zero_shiftLeft, Nat.zero_or]

/-- `Encode(mnemonic, k) = (k << 8) | OPC` (R79). -/
theorem encode_eq_or {i : Instr} (h : i.WellFormed) :
    encode i = BitVec.ofNat 32 (i.logN <<< 8 ||| i.opcode) := by
  rw [encode_eq_setWidth, ← toNat_append_fields h (i.opcode_lt.trans (by decide)), BitVec.ofNat_toNat]

/-- Settles O2: the fields of the encoded word are the command's (`encode_fields`), and the opcode map gives
the command back (`decodeOpc_opcode`). -/
theorem decodeOfEncodeIsIdentity : Obligations.DecodeOfEncodeIsIdentity :=
  fun _ h => decode_encode h

/-- Settles O3: the two forms of the encoder, and `encode_of_decode` on a word whose OPC is assigned. -/
theorem encodeOfDecodeIsIdentity : Obligations.EncodeOfDecodeIsIdentity := by
  refine ⟨fun i h => ⟨encode_eq_setWidth i, encode_eq_or h⟩, fun c h0 h1 h6 h7 hlt => ?_⟩
  have hassigned : decodeOpc (fieldOpc c) (fieldLogN c) ≠ none := by
    rw [ne_eq, decodeOpc_eq_none, fieldOpc]
    omega
  obtain ⟨i, hi⟩ := Option.ne_none_iff_exists'.1 hassigned
  have hdecode := decode_eq_ok_iff.2 ⟨fieldRsv0_eq_zero.2 h0, fieldRsv1_eq_zero.2 h1, hi⟩
  exact ⟨i, hdecode, wellFormed_of_decode hdecode, encode_of_decode hdecode⟩

/-- Settles O4: a word is refused when no command is its decoding (`decode_eq_ok_iff`, `decodeOpc_eq_none`), and
a decoded command has the OPC and the LOGN of its word. -/
theorem decoderFollowsOpcodeMap : Obligations.DecoderFollowsOpcodeMap := by
  refine fun c => ⟨?_, fun i hdecode => ?_⟩
  · simp only [decode_refuses_iff, decodeOpc_eq_none, ne_eq, fieldRsv0_eq_zero, fieldRsv1_eq_zero, fieldOpc]
  · obtain ⟨hopc, hlogN⟩ := opcode_logN_of_decode hdecode
    rw [← fieldOpc, ← fieldLogN, ← hopc, ← hlogN]
    cases i <;> rfl

/-- Settles O1: each word is one row of the opcode map, evaluated. -/
theorem decodesWrittenOutWords : Obligations.DecodesWrittenOutWords := by
  unfold Obligations.DecodesWrittenOutWords
  decide

end Sys2Proof

namespace Sys2Proof.Machine

/-! ### The completion step of a scalar command -/

section
variable {i : Instr} {s : State} {v : Nat}

/-- A failed check ends the command with its ECODE and changes STATUS alone (60_exceptions R208). -/
theorem endsInError_of_runScalar {check : Option CmdError} {c : CmdError}
    (h : exec i s = .next (s.runScalar check v)) (hc : check = some c) : EndsInError i s c.code.toNat := by
  rw [EndsInError, h, hc, State.runScalar_some, State.statusFailed, BitVec.ofNat_toNat, BitVec.setWidth_eq]
  rfl

/-- A command whose checks pass writes RESULT and STATUS (60_exceptions R209). -/
theorem exec_of_runScalar_passed {check : Option CmdError} (h : exec i s = .next (s.runScalar check v))
    (hc : check = none) : exec i s = .next { s with result := BitVec.ofNat 32 v, status := s.statusOk } := by
  rw [h, hc, State.runScalar_none]
  rfl

/-- A scalar command whose only check is MOD (60_exceptions R207). -/
theorem exec_scalar_cases (h : exec i s = .next (s.runScalar s.scalarCheck v)) :
    (s.mod.toNat = 0 → EndsInError i s 2) ∧
    (s.mod.toNat ≠ 0 → exec i s = .next { s with result := BitVec.ofNat 32 v, status := s.statusOk }) :=
  ⟨fun hmod => endsInError_of_runScalar h (State.scalarCheck_zero hmod),
    fun hmod => exec_of_runScalar_passed h (State.scalarCheck_nonzero hmod)⟩

end

/-- An error of the MOD check is the one MINV reports (60_exceptions R207). -/
theorem State.inverseCheck_of_scalarCheck_some {s : State} {c : CmdError} (h : s.scalarCheck = some c) :
    s.inverseCheck = some c := by
  simp only [State.inverseCheck, h]

/-- With MOD accepted, MINV checks that OPA has an inverse (60_exceptions R206). -/
theorem State.inverseCheck_of_scalarCheck_none {s : State} (h : s.scalarCheck = none) :
    s.inverseCheck = if s.opa.toNat % s.mod.toNat = 0 then some .noInverse else none := by
  simp only [State.inverseCheck, h]

/-! ### The shared functions -/

/-- The floor modulo differs from the exact difference by a multiple of the modulus (00_scope R10). -/
theorem dvd_sub_modSub (a b : Nat) {p : Nat} (hp : 0 < p) : (p : ℤ) ∣ ((a : ℤ) - b) - modSub a b p := by
  rw [modSub_cast a b hp]
  exact Int.dvd_self_sub_emod

theorem modAdd_comm (a b p : Nat) : modAdd a b p = modAdd b a p := congrArg (· % p) (Nat.add_comm a b)

theorem modMul_comm (a b p : Nat) : modMul a b p = modMul b a p := congrArg (· % p) (Nat.mul_comm a b)

/-- The exact sum as a residue class. -/
theorem modAdd_zmod (a b p : Nat) : (modAdd a b p : ZMod p) = (a : ZMod p) + b := by
  rw [modAdd, ZMod.natCast_mod, Nat.cast_add]

/-- Subtracting is adding the negative residue (40_modular_arithmetic R106): both are residues, of one class. -/
theorem modSub_eq_modAdd_neg (a b : Nat) {p : Nat} (hp : 0 < p) :
    modSub a b p = modAdd a (p - b % p) p := by
  have hneg : ((p - b % p : ℕ) : ZMod p) = -(b : ZMod p) := by
    rw [Nat.cast_sub (Nat.mod_lt b hp).le, ZMod.natCast_self, ZMod.natCast_mod, zero_sub]
  have hclass : (modSub a b p : ZMod p) = modAdd a (p - b % p) p := by
    rw [modSub_zmod a b p hp, modAdd_zmod, hneg, sub_eq_add_neg]
  exact ((ZMod.natCast_eq_natCast_iff _ _ p).1 hclass).eq_of_lt_of_lt (modSub_lt a b hp) (modAdd_lt a _ hp)

/-- Fermat's inverse: the product is `a ^ (p - 1)`, which is 1 modulo a prime that does not divide `a`. -/
theorem modMul_modInv {a p : Nat} (hp : p.Prime) (ha : a % p ≠ 0) : modMul a (modInv a p) p = 1 := by
  have hcoprime : a.Coprime p :=
    ((Nat.Prime.coprime_iff_not_dvd hp).2 fun hdvd => ha (Nat.mod_eq_zero_of_dvd hdvd)).symm
  have hexp : p - 2 + 1 = p.totient := by
    have := hp.two_le
    rw [Nat.totient_prime hp]
    omega
  calc modMul a (modInv a p) p
      = a * a ^ (p - 2) % p := by rw [modMul, modInv_eq, Nat.mul_mod_mod]
    _ = a ^ p.totient % p := by rw [← pow_succ', hexp]
    _ = 1 % p := Nat.ModEq.pow_totient hcoprime
    _ = 1 := Nat.mod_eq_of_lt hp.one_lt

/-! ### The commands of the modular arithmetic unit -/

/-- Settles O12: `modSub` is the residue with the required divisibility (`dvd_sub_modSub`). -/
theorem msubSubtractsModulo : Obligations.MsubSubtractsModulo := by
  refine ⟨hasOpcode_of_decodeOpc fun _ => rfl, fun k s => ?_⟩
  obtain ⟨herror, hresult⟩ := exec_scalar_cases (i := .msub k) (s := s) rfl
  refine ⟨herror, fun hmod => ?_⟩
  have hp : 0 < s.mod.toNat := Nat.pos_of_ne_zero hmod
  exact ⟨_, modSub_lt _ _ hp, dvd_sub_modSub _ _ hp, hresult hmod⟩

/-- Settles O14: binary exponentiation gives the exact power reduced (`modPow_eq`). -/
theorem mpowRaisesModulo : Obligations.MpowRaisesModulo := by
  refine ⟨hasOpcode_of_decodeOpc fun _ => rfl, fun k s => ?_⟩
  rw [← modPow_eq]
  exact exec_scalar_cases rfl

/-- Settles O15: the check of MOD comes before NO_INVERSE, and the value is `modInv_eq`. -/
theorem minvInvertsByFermat : Obligations.MinvInvertsByFermat := by
  refine ⟨hasOpcode_of_decodeOpc fun _ => rfl, fun k s => ?_⟩
  have hexec : exec (.minv k) s = .next (s.runScalar s.inverseCheck (modInv s.opa.toNat s.mod.toNat)) := rfl
  rw [← modInv_eq]
  refine ⟨fun hmod => ?_, fun hmod hopa => ?_, fun hmod hopa => ?_⟩
  · have hcheck := State.inverseCheck_of_scalarCheck_some (State.scalarCheck_zero hmod)
    exact endsInError_of_runScalar hexec hcheck
  · have hcheck := State.inverseCheck_of_scalarCheck_none (State.scalarCheck_nonzero hmod)
    exact endsInError_of_runScalar hexec (hcheck.trans (if_pos hopa))
  · have hcheck := State.inverseCheck_of_scalarCheck_none (State.scalarCheck_nonzero hmod)
    exact exec_of_runScalar_passed hexec (hcheck.trans (if_neg hopa))

/-- Settles O16, law by law: the ranges, commutativity, `modSub_eq_modAdd_neg` and `modMul_modInv`. -/
theorem modularFunctionLaws : Obligations.ModularFunctionLaws := by
  intro a b p hp
  have hranges : modAdd a b p < p ∧ modSub a b p < p ∧ modMul a b p < p ∧ modPow a b p < p ∧ modInv a p < p :=
    ⟨modAdd_lt a b hp, modSub_lt a b hp, modMul_lt a b hp, modPow_lt a b hp, modInv_lt a hp⟩
  exact ⟨hranges, ⟨modAdd_comm a b p, modMul_comm a b p⟩, modSub_eq_modAdd_neg a b hp, modMul_modInv⟩

/-- Settles O11: the value of MADD is the exact sum reduced, by definition. -/
theorem maddAddsModulo : Obligations.MaddAddsModulo :=
  ⟨hasOpcode_of_decodeOpc fun _ => rfl, fun _ _ => exec_scalar_cases rfl⟩

/-- Settles O13: the value of MMUL is the exact product reduced, by definition. -/
theorem mmulMultipliesModulo : Obligations.MmulMultipliesModulo :=
  ⟨hasOpcode_of_decodeOpc fun _ => rfl, fun _ _ => exec_scalar_cases rfl⟩

end Sys2Proof.Machine

namespace Sys2Proof.Machine

/-! ### One level of NTT_REC -/

/-- Twiddle i is the residue of t * w^i from a reduced t on (41_ntt_1d R121). -/
theorem twiddles_getElem? {p t : Nat} (w m : Nat) {i : Nat} (ht : t < p) (hi : i < m) :
    (twiddles p w m t)[i]? = some (t * w ^ i % p) := by
  induction m generalizing t i with
  | zero => omega
  | succ m ih =>
    cases i with
    | zero => simp [twiddles, Nat.mod_eq_of_lt ht]
    | succ i =>
      have hstep := ih (Nat.mod_lt (t * w) (by omega)) (Nat.lt_of_succ_lt_succ hi)
      rw [twiddles, List.getElem?_cons_succ, hstep, Nat.mod_mul_mod, mul_assoc, pow_succ']

/-- The combine loop starts at t = 1, so its twiddle i is the residue of w^i as a residue class, for p = 1 too. -/
theorem twiddles_getD_modEq_mod (p w : Nat) {m i : Nat} (hi : i < m) :
    (twiddles p w m 1).getD i 0 ≡ w ^ i % p [MOD p] := by
  have h := twiddles_getD_modEq p w m 1 hi
  rw [one_mul] at h
  exact h.trans (Nat.mod_modEq _ _).symm

/-- The twiddles depend on w only through w mod p (41_ntt_1d R121). -/
theorem twiddles_mod_root (p w m t : Nat) : twiddles p (w % p) m t = twiddles p w m t := by
  induction m generalizing t with
  | zero => rfl
  | succ m ih => rw [twiddles, twiddles, ih, Nat.mul_mod_mod]

/-- So do the transforms of length at least 2. -/
theorem nttRec_succ_mod_root (k : Nat) (a : List Nat) (p w : Nat) :
    nttRec (k + 1) a p (w % p) = nttRec (k + 1) a p w := by
  rw [nttRec_succ, nttRec_succ, twiddles_mod_root, ← Nat.mul_mod]

/-- Every output of a level of length at least 2 is a residue (41_ntt_1d R121). -/
theorem nttRec_succ_lt {k : Nat} {a : List Nat} {p w x : Nat} (hp : 0 < p) (hx : x ∈ nttRec (k + 1) a p w) :
    x < p :=
  mem_butterflies_lt hp _ _ _ hx

/-- The floor modulo depends on its subtrahend only as a residue class. -/
theorem modSub_congr_right (a : Nat) {b b' p : Nat} (h : b ≡ b' [MOD p]) : modSub a b p = modSub a b' p :=
  congrArg Int.toNat ((Int.ModEq.refl (a : ℤ)).sub (Int.natCast_modEq_iff.2 h))

section
variable {k : Nat} {a : List Nat}

theorem evens_length_half (h : a.length = 2 ^ (k + 1)) : (evens a).length = 2 ^ k :=
  evens_length a (h.trans (pow_succ' 2 k))

theorem odds_length_half (h : a.length = 2 ^ (k + 1)) : (odds a).length = 2 ^ k :=
  odds_length a (h.trans (pow_succ' 2 k))

variable {p i : Nat} (w : Nat) (ha : a.length = 2 ^ (k + 1)) (hi : i < 2 ^ k)
include ha hi

/-- The first half of a level (41_ntt_1d R120): `(E[i] + t*O[i]) mod p` with t the residue of w^i. -/
theorem nttRec_succ_getElem?_low : (nttRec (k + 1) a p w)[i]? =
    some (((nttRec k (evens a) p (w * w % p)).getD i 0 +
      w ^ i % p * (nttRec k (odds a) p (w * w % p)).getD i 0) % p) := by
  rw [nttRec_succ, butterflies_getElem_low p _ _ _ (twiddles_length ..)
    (nttRec_length _ _ (evens_length_half ha)) (nttRec_length _ _ (odds_length_half ha)) hi]
  exact congrArg some (((twiddles_getD_modEq_mod p w hi).mul_right _).add_left _)

/-- The second half: the floor modulo of `E[i] - t*O[i]`. -/
theorem nttRec_succ_getElem?_high : (nttRec (k + 1) a p w)[i + 2 ^ k]? =
    some (modSub ((nttRec k (evens a) p (w * w % p)).getD i 0)
      (w ^ i % p * (nttRec k (odds a) p (w * w % p)).getD i 0) p) := by
  rw [nttRec_succ, butterflies_getElem_high p _ _ _ (twiddles_length ..)
    (nttRec_length _ _ (evens_length_half ha)) (nttRec_length _ _ (odds_length_half ha)) hi]
  exact congrArg some (modSub_congr_right _ ((twiddles_getD_modEq_mod p w hi).mul_right _))

/-- The first half of a level as residue classes. -/
theorem nttRec_succ_zmod_low : ((nttRec (k + 1) a p w).getD i 0 : ZMod p) =
    (nttRec k (evens a) p (w * w % p)).getD i 0 +
      (w : ZMod p) ^ i * (nttRec k (odds a) p (w * w % p)).getD i 0 := by
  rw [List.getD_eq_getElem?_getD, nttRec_succ_getElem?_low w ha hi]
  simp

/-- The second half as residue classes. -/
theorem nttRec_succ_zmod_high (hp : 0 < p) : ((nttRec (k + 1) a p w).getD (i + 2 ^ k) 0 : ZMod p) =
    (nttRec k (evens a) p (w * w % p)).getD i 0 -
      (w : ZMod p) ^ i * (nttRec k (odds a) p (w * w % p)).getD i 0 := by
  rw [List.getD_eq_getElem?_getD, nttRec_succ_getElem?_high w ha hi, Option.getD_some, modSub_zmod _ _ _ hp]
  simp

end

/-- A list is listed by its elements. -/
theorem eq_map_range_getD {l : List Nat} {n : Nat} (h : l.length = n) : l = (List.range n).map fun j => l.getD j 0 := by
  refine List.ext_getElem (by simp [h]) fun i hi _ => ?_
  simp [hi]

/-- An index below 2^(k+1) lies in the first half, or it is 2^k above one that does. -/
theorem lt_half_or_eq_add {j k : Nat} (hj : j < 2 ^ (k + 1)) : j < 2 ^ k ∨ ∃ i < 2 ^ k, j = i + 2 ^ k := by
  rw [pow_succ] at hj
  by_cases h : j < 2 ^ k
  · exact .inl h
  · exact .inr ⟨j - 2 ^ k, by omega, by omega⟩

/-- Settles O17: the halves of the list are its even and odd elements, and each output is a butterfly. -/
theorem nttFollowsTheRecursion : Obligations.NttFollowsTheRecursion := by
  refine ⟨fun _ _ _ => rfl, fun k a p w hp ha => ⟨nttRec_length p w ha, fun i hi => ?_⟩⟩
  have heven : (List.range (2 ^ k)).map (fun j => a.getD (2 * j) 0) = evens a := by
    simpa only [evens_getD] using (eq_map_range_getD (evens_length_half ha)).symm
  have hodd : (List.range (2 ^ k)).map (fun j => a.getD (2 * j + 1) 0) = odds a := by
    simpa only [odds_getD] using (eq_map_range_getD (odds_length_half ha)).symm
  rw [heven, hodd]
  refine ⟨nttRec_succ_getElem?_low w ha hi, ?_⟩
  rw [nttRec_succ_getElem?_high w ha hi, modSub, Nat.cast_mul]

/-- At length 2 there is one twiddle, 1, so the root does not appear (41_ntt_1d R121). -/
theorem nttRec_one (x y p w : Nat) : nttRec 1 [x, y] p w = [(x + y) % p, modSub x y p] := by
  simp [nttRec, butterflies, twiddles, evens, odds]

/-- Settles O18: `twiddles_getElem?`, the range and `nttRec_succ_mod_root`; length 2 is `nttRec_one`. -/
theorem nttDependsOnRootModulo : Obligations.NttDependsOnRootModulo := by
  intro k a p w hp ha
  refine ⟨fun m i hi hp2 => ?_, fun x hx => nttRec_succ_lt hp hx, (nttRec_succ_mod_root k a p w).symm, fun hk => ?_⟩
  · rw [twiddles_getElem? w m hp2 hi, one_mul]
  · subst hk
    obtain ⟨x, y, rfl⟩ := List.length_eq_two.1 ha
    exact nttRec_one x y p w

/-- Every element of the inverse transform is scaled once by the inverse of n (41_ntt_1d R122). -/
theorem inttFn_getElem? {k : Nat} {y : List Nat} (p w : Nat) (hy : y.length = 2 ^ k) {i : Nat} (hi : i < 2 ^ k) :
    (inttFn k y p w)[i]? = some ((nttRec k y p w).getD i 0 * modInv (2 ^ k) p % p) := by
  have hlt : i < (nttRec k y p w).length := by rwa [nttRec_length p w hy]
  rw [inttFn, List.getElem?_map, List.getElem?_eq_getElem hlt, List.getD_eq_getElem _ _ hlt, Option.map_some]

/-- Settles O19: the scaling of `inttFn_getElem?` with the power `modInv_eq`. -/
theorem inttScalesOnce : Obligations.InttScalesOnce := by
  intro k y p wInv hy _ _
  refine ⟨inttFn_length p wInv hy, fun i hi => ?_⟩
  rw [inttFn_getElem? p wInv hy hi, modInv_eq]

/-! ### The commands NTT1 and INTT1 -/

/-- A vector command on sequences that passes its checks writes its values to the destination region
(60_exceptions R207 to R209), when they are words. -/
theorem exec_writesSequence {i : Instr} {s : State} {f : VectorForm} {k : Nat}
    {value : List Nat → List Nat → List Nat} (h : exec i s = .next (s.runVector f k value))
    (hready : s.Ready f.readsB f.scales k (f.words k))
    (hlt : ∀ x ∈ value (s.sourceA f k) (s.sourceB f k), x < 2 ^ 32) :
    ∃ t, exec i s = .next t ∧ WritesSequence s t s.dst.toNat (value (s.sourceA f k) (s.sourceB f k)) := by
  rw [h, State.runVector_ready value ((State.vectorCheck_eq_none_iff s f k).2 hready)]
  exact ⟨_, rfl, writesSequence_of_lt s hlt⟩

/-- The words of SRCA, as the obligations name them (20_memory R58). -/
theorem State.sourceA_eq_sequenceAt (s : State) {f : VectorForm} (hf : f.square = false) (k : Nat) :
    s.sourceA f k = s.sequenceAt s.draws s.srca.toNat (2 ^ k) := by
  simp [State.sourceA, State.memRead, State.sequenceAt, VectorForm.words, hf]

theorem State.sourceA_lt (s : State) (f : VectorForm) (k : Nat) : ∀ x ∈ s.sourceA f k, x < 2 ^ 32 := by
  intro x hx
  obtain ⟨i, -, rfl⟩ := List.mem_map.1 hx
  exact BitVec.isLt _

/-- Settles O20: the values are `nttRec` of the source words, and they fit in words (`nttRec_lt`). -/
theorem ntt1Transforms : Obligations.Ntt1Transforms := by
  refine ⟨hasOpcode_of_decodeOpc fun _ => rfl, fun k s =>
    ⟨checksInOrder_of_runVector (f := ntt1Form) rfl, fun hready => ?_⟩⟩
  have hlt : ∀ x ∈ nttRec k (s.sourceA ntt1Form k) s.mod.toNat s.root.toNat, x < 2 ^ 32 := fun x hx =>
    nttRec_lt (Nat.pos_of_ne_zero hready.1) s.mod.isLt.le (s.sourceA_lt ntt1Form k) hx
  obtain ⟨t, ht, hwrites⟩ := exec_writesSequence (i := .ntt1 k) (f := ntt1Form) rfl hready hlt
  rw [← s.sourceA_eq_sequenceAt (f := ntt1Form) rfl]
  exact ⟨t, _, ht, nttRec_length _ _ (s.sourceA_length ntt1Form k), rfl, hwrites⟩

/-- Settles O21: the values are `inttFn` of the source words, residues of MOD (`inttFn_lt`). -/
theorem intt1Inverts : Obligations.Intt1Inverts := by
  refine ⟨hasOpcode_of_decodeOpc fun _ => rfl, fun k s =>
    ⟨checksInOrder_of_runVector (f := intt1Form) rfl, fun hready => ?_⟩⟩
  have hlt : ∀ x ∈ inttFn k (s.sourceA intt1Form k) s.mod.toNat s.rootInv.toNat, x < 2 ^ 32 := fun x hx =>
    (inttFn_lt (Nat.pos_of_ne_zero hready.1) hx).trans s.mod.isLt
  obtain ⟨t, ht, hwrites⟩ := exec_writesSequence (i := .intt1 k) (f := intt1Form) rfl hready hlt
  rw [← s.sourceA_eq_sequenceAt (f := intt1Form) rfl]
  exact ⟨t, _, ht, inttFn_length _ _ (s.sourceA_length intt1Form k), rfl, hwrites⟩

end Sys2Proof.Machine

namespace Sys2Proof.Machine

/-! ### The discrete Fourier transform over a ring -/

section
variable {R : Type} [CommRing R]

/-- The sum of 41_ntt_1d R126 over any commutative ring: entry j of the transform of `x 0, ..., x (n - 1)`
with the root w. -/
def dft (n : Nat) (x : Nat → R) (w : R) (j : Nat) : R := ∑ i ∈ Finset.range n, x i * w ^ (i * j)

theorem dft_congr {n : Nat} {x y : Nat → R} (h : ∀ i < n, x i = y i) (w : R) (j : Nat) :
    dft n x w j = dft n y w j :=
  Finset.sum_congr rfl fun i hi => by rw [h i (Finset.mem_range.1 hi)]

/-- A sum over 2n indices, by even and odd ones. -/
theorem sum_range_even_add_odd (f : Nat → R) (n : Nat) :
    ∑ i ∈ Finset.range (2 * n), f i =
      ∑ i ∈ Finset.range n, f (2 * i) + ∑ i ∈ Finset.range n, f (2 * i + 1) := by
  induction n with
  | zero => simp
  | succ n ih =>
    rw [Nat.mul_succ, Finset.sum_range_succ, Finset.sum_range_succ, ih, Finset.sum_range_succ _ n,
      Finset.sum_range_succ _ n]
    ring

/-- The even/odd split of a transform of length 2n, at every index. -/
theorem dft_two_mul (n : Nat) (x : Nat → R) (w : R) (j : Nat) : dft (2 * n) x w j =
    dft n (fun i => x (2 * i)) (w * w) j + w ^ j * dft n (fun i => x (2 * i + 1)) (w * w) j := by
  rw [dft, sum_range_even_add_odd, dft, dft, Finset.mul_sum]
  congr 1
  · exact Finset.sum_congr rfl fun i _ => by ring
  · exact Finset.sum_congr rfl fun i _ => by ring

/-- A transform repeats after n entries when w^n = 1. -/
theorem dft_add_period {n : Nat} (x : Nat → R) {w : R} (hw : w ^ n = 1) (j : Nat) :
    dft n x w (j + n) = dft n x w j := by
  refine Finset.sum_congr rfl fun i _ => ?_
  rw [mul_add, pow_add, Nat.mul_comm i n, pow_mul w n i, hw, one_pow, mul_one]

/-- The second half of a transform of length 2n: half a turn of the root changes the sign of the odd part. -/
theorem dft_two_mul_add {n : Nat} (x : Nat → R) {w : R} (hw : w ^ n = -1) (j : Nat) : dft (2 * n) x w (j + n) =
    dft n (fun i => x (2 * i)) (w * w) j - w ^ j * dft n (fun i => x (2 * i + 1)) (w * w) j := by
  have hsq : (w * w) ^ n = 1 := by rw [mul_pow, hw, neg_one_mul, neg_neg]
  rw [dft_two_mul, dft_add_period _ hsq, dft_add_period _ hsq, pow_add, hw]
  ring

end

/-- The powers of w^i * v^l, with v the inverse of w, sum to n if i = l and to 0 otherwise: orthogonality of the
powers of a root of order n. -/
theorem sum_pow_mul_pow {F : Type} [Field F] {n : Nat} {w v : F} (hw : IsPrimitiveRoot w n) (hv : w * v = 1)
    {i l : Nat} (hi : i < n) (hl : l < n) :
    ∑ j ∈ Finset.range n, (w ^ i * v ^ l) ^ j = if i = l then (n : F) else 0 := by
  split
  case isTrue h => simp [h, ← mul_pow, hv]
  case isFalse h =>
    have hne : w ^ i * v ^ l ≠ 1 := fun hone => h <| hw.pow_inj hi hl <| by
      calc w ^ i = w ^ i * v ^ l * w ^ l := by rw [mul_assoc, ← mul_pow, mul_comm v, hv, one_pow, mul_one]
        _ = w ^ l := by rw [hone, one_mul]
    have hvn : v ^ n = 1 := by
      calc v ^ n = (w * v) ^ n := by rw [mul_pow, hw.pow_eq_one, one_mul]
        _ = 1 := by rw [hv, one_pow]
    have hturn : (w ^ i * v ^ l) ^ n = 1 := by
      rw [mul_pow, pow_right_comm w, pow_right_comm v, hw.pow_eq_one, hvn, one_pow, one_pow, one_mul]
    rw [geom_sum_eq hne, hturn, sub_self, zero_div]

/-- Transforming back with the inverse root multiplies every element by n. -/
theorem dft_dft {F : Type} [Field F] {n : Nat} {w v : F} (hw : IsPrimitiveRoot w n) (hv : w * v = 1)
    (x : Nat → F) {l : Nat} (hl : l < n) : dft n (dft n x w) v l = n * x l := by
  calc dft n (dft n x w) v l
      = ∑ j ∈ Finset.range n, ∑ i ∈ Finset.range n, x i * (w ^ i * v ^ l) ^ j := by
        refine Finset.sum_congr rfl fun j _ => ?_
        rw [dft, Finset.sum_mul]
        refine Finset.sum_congr rfl fun i _ => ?_
        ring
    _ = ∑ i ∈ Finset.range n, x i * ∑ j ∈ Finset.range n, (w ^ i * v ^ l) ^ j := by
        rw [Finset.sum_comm]
        simp only [Finset.mul_sum]
    _ = ∑ i ∈ Finset.range n, x i * if i = l then (n : F) else 0 :=
        Finset.sum_congr rfl fun i hi => by rw [sum_pow_mul_pow hw hv (Finset.mem_range.1 hi) hl]
    _ = n * x l := by simp [hl, mul_comm]

/-- A root of order 2^(m+1) is -1 after half a turn (41_ntt_1d R126). -/
theorem pow_half_eq_neg_one {F : Type} [Field F] {m : Nat} {w : F} (hw : IsPrimitiveRoot w (2 ^ (m + 1))) :
    w ^ 2 ^ m = -1 :=
  (hw.pow (Nat.two_pow_pos _) (pow_succ 2 m)).eq_neg_one_of_two_right

/-! ### NTT_REC computes it -/

/-- The DFT law in residue classes: no condition at length 1, half a turn of the root is -1 otherwise. -/
theorem nttRec_zmod_eq_dft {k : Nat} {a : List Nat} {p : Nat} (hp : 0 < p) (w : Nat) (ha : a.length = 2 ^ k)
    (hw : ∀ m, k = m + 1 → (w : ZMod p) ^ 2 ^ m = -1) {j : Nat} (hj : j < 2 ^ k) :
    ((nttRec k a p w).getD j 0 : ZMod p) = dft (2 ^ k) (fun i => (a.getD i 0 : ZMod p)) w j := by
  induction k generalizing a w j with
  | zero =>
    obtain rfl : j = 0 := by omega
    simp [dft]
  | succ k ih =>
    have hroot : ((w * w % p : ℕ) : ZMod p) = (w : ZMod p) * w := by rw [ZMod.natCast_mod, Nat.cast_mul]
    have hhalf : ∀ m, k = m + 1 → ((w * w % p : ℕ) : ZMod p) ^ 2 ^ m = -1 := by
      rintro m rfl
      rw [hroot, ← pow_two, ← pow_mul, ← pow_succ']
      exact hw _ rfl
    have heven {i : Nat} (hi : i < 2 ^ k) := ih (w * w % p) (evens_length_half ha) hhalf hi
    have hodd {i : Nat} (hi : i < 2 ^ k) := ih (w * w % p) (odds_length_half ha) hhalf hi
    simp only [hroot, evens_getD, odds_getD] at heven hodd
    rw [pow_succ' 2 k]
    rcases lt_half_or_eq_add hj with hi | ⟨i, hi, rfl⟩
    · rw [nttRec_succ_zmod_low w ha hi, dft_two_mul, heven hi, hodd hi]
    · rw [nttRec_succ_zmod_high w ha hi hp, dft_two_mul_add _ (hw k rfl), heven hi, hodd hi]

/-- A residue is the residue of every number of its class. -/
theorem eq_mod_of_zmod_eq {x y p : Nat} (hx : x < p) (h : (x : ZMod p) = y) : x = y % p :=
  (Nat.mod_eq_of_lt hx).symm.trans ((ZMod.natCast_eq_natCast_iff' x y p).1 h)

/-- The root condition of 41_ntt_1d R126 as a residue class. -/
theorem pow_zmod_eq_neg_one {p w n : Nat} (hp : 1 ≤ p) (h : w ^ n ≡ p - 1 [MOD p]) : (w : ZMod p) ^ n = -1 := by
  simpa [Nat.cast_sub hp] using (ZMod.natCast_eq_natCast_iff _ _ p).2 h

/-- Settles O22: both sides are one residue class (`nttRec_zmod_eq_dft`), and both are residues. -/
theorem nttIsTheDft : Obligations.NttIsTheDft := by
  intro k a p w hp ha hroot j hj
  have hlen : j < (nttRec k a p w).length := by rwa [nttRec_length p w ha]
  have hlt : (nttRec k a p w)[j] < p := by
    rcases hroot with ⟨hk, -⟩ | ⟨rfl, h0⟩
    · obtain ⟨m, rfl⟩ := Nat.exists_eq_succ_of_ne_zero (Nat.ne_of_gt hk)
      exact nttRec_succ_lt hp (List.getElem_mem hlen)
    · obtain ⟨x, rfl⟩ := List.length_eq_one_iff.1 ha
      obtain rfl : j = 0 := by omega
      exact h0
  have hhalf : ∀ m, k = m + 1 → (w : ZMod p) ^ 2 ^ m = -1 := by
    rintro m rfl
    rcases hroot with ⟨-, hw⟩ | ⟨hk, -⟩
    · exact pow_zmod_eq_neg_one hp hw
    · omega
  have hdft := nttRec_zmod_eq_dft hp w ha hhalf hj
  rw [List.getD_eq_getElem _ _ hlen] at hdft
  rw [List.getElem?_eq_getElem hlen]
  refine congrArg some (eq_mod_of_zmod_eq hlt (hdft.trans ?_))
  rw [dft]
  push_cast
  rfl

/-! ### The round trip -/

/-- A field with a root of order 2^k has an inverse of 2^k: it is not of characteristic 2, or k = 0. -/
theorem two_pow_mod_ne_zero {p k w : Nat} (h : PrimitiveRoot p (2 ^ k) w) : 2 ^ k % p ≠ 0 := by
  obtain ⟨hp, hw⟩ := h
  have := Fact.mk hp
  have hne := (IsPrimitiveRoot.iff_orderOf.2 hw).neZero'.ne
  rwa [ne_eq, ZMod.natCast_eq_zero_iff, Nat.dvd_iff_mod_eq_zero] at hne

/-- The two transforms, without the scaling, multiply every element by n. -/
theorem nttRec_nttRec_zmod {k : Nat} {a : List Nat} {p w wInv : Nat} (h : PrimitiveRoot p (2 ^ k) w)
    (hinv : w * wInv % p = 1) (ha : a.length = 2 ^ k) {j : Nat} (hj : j < 2 ^ k) :
    ((nttRec k (nttRec k a p w) p wInv).getD j 0 : ZMod p) = ((2 ^ k * a.getD j 0 : ℕ) : ZMod p) := by
  obtain ⟨hp, horder⟩ := h
  have := Fact.mk hp
  have hw : IsPrimitiveRoot (w : ZMod p) (2 ^ k) := IsPrimitiveRoot.iff_orderOf.2 horder
  have hmul : (w : ZMod p) * wInv = 1 := by rw [← Nat.cast_mul, ← ZMod.natCast_mod, hinv, Nat.cast_one]
  have hv : IsPrimitiveRoot (wInv : ZMod p) (2 ^ k) := by
    rw [eq_inv_of_mul_eq_one_right hmul]
    exact hw.inv
  have hforward : ∀ i < 2 ^ k, _ := fun i hi =>
    nttRec_zmod_eq_dft hp.pos w ha (fun m hm => pow_half_eq_neg_one (hm ▸ hw)) hi
  rw [nttRec_zmod_eq_dft hp.pos wInv (nttRec_length p w ha) (fun m hm => pow_half_eq_neg_one (hm ▸ hv)) hj,
    dft_congr hforward, dft_dft hw hmul _ hj]
  push_cast
  rfl

/-- Settles O23: the factor n of `nttRec_nttRec_zmod` is undone by the scaling, and elements below p are residues. -/
theorem inttUndoesNtt : Obligations.InttUndoesNtt := by
  intro k a p w wInv hroot hinv ha hlt
  have hlen := inttFn_length p wInv (nttRec_length p w ha)
  refine List.ext_getElem (hlen.trans ha.symm) fun j hj hja => Option.some_injective _ ?_
  have hj' : j < 2 ^ k := hlen ▸ hj
  have hscale := modMul_modInv hroot.1 (two_pow_mod_ne_zero hroot)
  have hround := (ZMod.natCast_eq_natCast_iff _ _ p).1 (nttRec_nttRec_zmod hroot hinv ha hj')
  rw [← List.getElem?_eq_getElem, inttFn_getElem? p wInv (nttRec_length p w ha) hj']
  refine congrArg some ?_
  calc (nttRec k (nttRec k a p w) p wInv).getD j 0 * modInv (2 ^ k) p % p
      = 2 ^ k * a.getD j 0 * modInv (2 ^ k) p % p := hround.mul_right _
    _ = modMul (2 ^ k) (modInv (2 ^ k) p) p * a.getD j 0 % p := by
        rw [modMul, Nat.mod_mul_mod, mul_right_comm]
    _ = a[j] := by
        rw [hscale, one_mul, List.getD_eq_getElem _ _ hja, Nat.mod_eq_of_lt (hlt _ (List.getElem_mem hja))]

/-! ### Linearity -/

/-- Every step of NTT_REC is linear in residue classes (41_ntt_1d R128). The sum is stated element by element, the
form the even and the odd halves inherit. -/
theorem nttRec_add_zmod {k : Nat} {a b c : List Nat} {p : Nat} (hp : 0 < p) (w : Nat) (ha : a.length = 2 ^ k)
    (hb : b.length = 2 ^ k) (hc : c.length = 2 ^ k)
    (hsum : ∀ i, (c.getD i 0 : ZMod p) = a.getD i 0 + b.getD i 0) {j : Nat} (hj : j < 2 ^ k) :
    ((nttRec k c p w).getD j 0 : ZMod p) = (nttRec k a p w).getD j 0 + (nttRec k b p w).getD j 0 := by
  induction k generalizing a b c w j with
  | zero => exact hsum j
  | succ k ih =>
    have heven {i : Nat} (hi : i < 2 ^ k) := ih (w * w % p) (evens_length_half ha) (evens_length_half hb)
      (evens_length_half hc) (fun i => by simpa only [evens_getD] using hsum (2 * i)) hi
    have hodd {i : Nat} (hi : i < 2 ^ k) := ih (w * w % p) (odds_length_half ha) (odds_length_half hb)
      (odds_length_half hc) (fun i => by simpa only [odds_getD] using hsum (2 * i + 1)) hi
    rcases lt_half_or_eq_add hj with hi | ⟨i, hi, rfl⟩
    · rw [nttRec_succ_zmod_low w ha hi, nttRec_succ_zmod_low w hb hi, nttRec_succ_zmod_low w hc hi, heven hi,
        hodd hi]
      ring
    · rw [nttRec_succ_zmod_high w ha hi hp, nttRec_succ_zmod_high w hb hi hp, nttRec_succ_zmod_high w hc hi hp,
        heven hi, hodd hi]
      ring

/-- The element-by-element sum mod p, as residue classes. -/
theorem zipWith_add_mod_zmod {a b : List Nat} (p : Nat) (h : a.length = b.length) (i : Nat) :
    ((List.zipWith (fun x y => (x + y) % p) a b).getD i 0 : ZMod p) = a.getD i 0 + b.getD i 0 := by
  by_cases hi : i < a.length
  · simp [hi, h ▸ hi]
  · have hi' : b.length ≤ i := by omega
    simp [hi, hi']

/-- Settles O24: `nttRec_add_zmod` for the element-by-element sum. -/
theorem nttIsLinear : Obligations.NttIsLinear := by
  refine ⟨fun k a b p w hp ha hb j hj => ?_, fun _ _ _ => rfl⟩
  have hc : (List.zipWith (fun x y => (x + y) % p) a b).length = 2 ^ k := by simp [ha, hb]
  rw [← ZMod.natCast_eq_natCast_iff, Nat.cast_add]
  exact (nttRec_add_zmod hp w ha hb hc (zipWith_add_mod_zmod p (ha.trans hb.symm)) hj).symm

end Sys2Proof.Machine

namespace Sys2Proof.Machine

/-! ### The commands NTT2 and INTT2 -/

/-- A vector command on matrices that passes its checks writes its matrix to the destination region in row-major
order (60_exceptions R207 to R209, 20_memory R59), when the elements are words. -/
theorem exec_writesMatrix {i : Instr} {s : State} {f : VectorForm} {k n : Nat} {value : List Nat → List Nat → Mat}
    (h : exec i s = .next (s.runVector f k fun a b => (value a b).rowMajor))
    (hready : s.Ready f.readsB f.scales k (f.words k))
    (hsquare : (value (s.sourceA f k) (s.sourceB f k)).Square n)
    (hlt : ∀ row ∈ value (s.sourceA f k) (s.sourceB f k), ∀ x ∈ row, x < 2 ^ 32) :
    ∃ t, exec i s = .next t ∧ WritesMatrix s t s.dst.toNat n (value (s.sourceA f k) (s.sourceB f k)) := by
  rw [h, State.runVector_ready _ ((State.vectorCheck_eq_none_iff s f k).2 hready)]
  exact ⟨_, rfl, writesMatrix_of_lt s hsquare hlt⟩

/-- The words of SRCA spell the matrix that the obligations name (20_memory R59). -/
theorem State.ofRowMajor_sourceA (s : State) {f : VectorForm} (hf : f.square = true) (k : Nat) :
    Mat.ofRowMajor (2 ^ k) (s.sourceA f k) = s.matrixAt s.draws s.srca.toNat (2 ^ k) := by
  rw [State.sourceA, VectorForm.words, if_pos hf, Mat.ofRowMajor_memRead]

/-- Settles O25: the matrix is `ntt2Fn` of the source matrix, and its elements fit in words (`ntt2Fn_lt`). -/
theorem ntt2Transforms : Obligations.Ntt2Transforms := by
  refine ⟨hasOpcode_of_decodeOpc fun _ => rfl, fun k s =>
    ⟨checksInOrder_of_runVector (f := ntt2Form) rfl, fun hready => ?_⟩⟩
  have hlt := ntt2Fn_lt (w := s.root.toNat) (Nat.pos_of_ne_zero hready.1) s.mod.isLt.le (Mat.square_build ..)
    (Mat.ofRowMajor_lt (s.sourceA_length ntt2Form k) (s.sourceA_lt ntt2Form k))
  obtain ⟨t, ht, hwrites⟩ := exec_writesMatrix (i := .ntt2 k) (f := ntt2Form) rfl hready (ntt2Fn_square ..) hlt
  rw [← s.ofRowMajor_sourceA (f := ntt2Form) rfl]
  exact ⟨t, _, ht, rfl, hwrites⟩

/-- Settles O26: the matrix is `intt2Fn` of the source matrix, of residues of MOD (`intt2Fn_lt`). -/
theorem intt2Inverts : Obligations.Intt2Inverts := by
  refine ⟨hasOpcode_of_decodeOpc fun _ => rfl, fun k s =>
    ⟨checksInOrder_of_runVector (f := intt2Form) rfl, fun hready => ?_⟩⟩
  have hlt : ∀ row ∈ intt2Fn k (Mat.ofRowMajor (2 ^ k) (s.sourceA intt2Form k)) s.mod.toNat s.rootInv.toNat,
      ∀ x ∈ row, x < 2 ^ 32 := fun row hrow x hx =>
    (intt2Fn_lt (Nat.pos_of_ne_zero hready.1) row hrow x hx).trans s.mod.isLt
  obtain ⟨t, ht, hwrites⟩ := exec_writesMatrix (i := .intt2 k) (f := intt2Form) rfl hready (intt2Fn_square ..) hlt
  rw [← s.ofRowMajor_sourceA (f := intt2Form) rfl]
  exact ⟨t, _, ht, rfl, hwrites⟩

end Sys2Proof.Machine

namespace Sys2Proof.Machine

/-! ### Rows and columns of the 2D transforms -/

/-- Column c of an n by n matrix (00_scope R13). -/
def Mat.column (n : Nat) (M : Mat) (c : Nat) : List Nat := (List.range n).map fun r => M.entry r c

@[simp] theorem Mat.column_length (n : Nat) (M : Mat) (c : Nat) : (M.column n c).length = n := by simp [Mat.column]

theorem Mat.column_getD {n : Nat} (M : Mat) (c : Nat) {r : Nat} (hr : r < n) :
    (M.column n c).getD r 0 = M.entry r c := by
  simp [Mat.column, hr]

theorem Mat.row_length {n : Nat} {M : Mat} (h : M.Square n) {r : Nat} (hr : r < n) : (M.getD r []).length = n := by
  rw [List.getD_eq_getElem _ _ (h.1.symm ▸ hr)]
  exact h.2 _ (List.getElem_mem _)

/-- The rows of the transposed matrix are the columns of the matrix. -/
theorem Mat.transpose_row (M : Mat) {n c : Nat} (hc : c < n) : (Mat.transpose n M).getD c [] = M.column n c :=
  Mat.getD_build n _ hc

/-- The columns of the transposed matrix are the rows of the matrix. -/
theorem Mat.transpose_column {n : Nat} {M : Mat} (h : M.Square n) {r : Nat} (hr : r < n) :
    (Mat.transpose n M).column n r = M.getD r [] := by
  rw [eq_map_range_getD (Mat.row_length h hr), Mat.column]
  exact List.map_congr_left fun c hc => Mat.entry_transpose n M (List.mem_range.1 hc) hr

theorem Mat.transpose_transpose {n : Nat} {M : Mat} (h : M.Square n) :
    Mat.transpose n (Mat.transpose n M) = M :=
  Mat.ext_of_entry (Mat.square_transpose ..) h fun r hr c hc => by
    rw [Mat.entry_transpose n _ hr hc, Mat.entry_transpose n M hc hr]

section
variable {k : Nat} {M : Mat} (p w : Nat) (h : M.Square (2 ^ k)) {r : Nat} (hr : r < 2 ^ k)
include h hr

/-- Each row of ROWS_FWD is the 1D transform of that row (42_ntt_2d R140). -/
theorem rowsFwd_row : (rowsFwd k M p w).getD r [] = nttRec k (M.getD r []) p w := by
  simp [rowsFwd, h.1, hr]

/-- Each row of ROWS_INV is the 1D inverse of that row, with its own scaling (42_ntt_2d R143). -/
theorem rowsInv_row : (rowsInv k M p w).getD r [] = inttFn k (M.getD r []) p w := by
  simp [rowsInv, h.1, hr]

end

/-- Column v of NTT2_FN is the 1D transform of column v of the row-transformed matrix (42_ntt_2d R140). -/
theorem ntt2Fn_column {k : Nat} (M : Mat) (p w : Nat) {v : Nat} (hv : v < 2 ^ k) :
    (ntt2Fn k M p w).column (2 ^ k) v = nttRec k ((rowsFwd k M p w).column (2 ^ k) v) p w := by
  rw [ntt2Fn, Mat.transpose_column (rowsFwd_square _ _ (Mat.square_transpose ..)) hv,
    rowsFwd_row p w (Mat.square_transpose ..) hv, Mat.transpose_row _ hv]

/-- Row u of INTT2_FN is the 1D inverse of row u of the matrix whose columns are inverted (42_ntt_2d R140). -/
theorem intt2Fn_row {k : Nat} (M : Mat) (p w : Nat) {u : Nat} (hu : u < 2 ^ k) : (intt2Fn k M p w).getD u [] =
    inttFn k ((rowsInv k (Mat.transpose (2 ^ k) M) p w).column (2 ^ k) u) p w := by
  rw [intt2Fn, rowsInv_row p w (Mat.square_transpose ..) hu, Mat.transpose_row _ hu]

/-- Settles O27: `ntt2Fn_column` and `intt2Fn_row`, with the rows of the first pass written out. -/
theorem transformsAreSeparable : Obligations.TransformsAreSeparable := by
  intro k M p w hM
  refine ⟨ntt2Fn_square .., intt2Fn_square .., fun v hv => ?_, fun u hu => ?_⟩
  · refine (ntt2Fn_column M p w hv).trans (congrArg (nttRec k · p w) (List.map_congr_left fun r hr => ?_))
    rw [Mat.entry, rowsFwd_row p w hM (List.mem_range.1 hr)]
  · refine (intt2Fn_row M p w hu).trans (congrArg (inttFn k · p w) (List.map_congr_left fun c hc => ?_))
    have hc := List.mem_range.1 hc
    rw [Mat.entry, rowsInv_row p w (Mat.square_transpose ..) hc, Mat.transpose_row M hc, Mat.column]

/-! ### The DFT law and the round trip -/

/-- An element of the row-transformed matrix is the 1D DFT of its row (41_ntt_1d R126). -/
theorem rowsFwd_entry_dft {k : Nat} {M : Mat} {p w : Nat} (hp : 1 ≤ p) (hM : M.Square (2 ^ k)) (hk : 1 ≤ k)
    (hw : w ^ 2 ^ (k - 1) ≡ p - 1 [MOD p]) {r v : Nat} (hr : r < 2 ^ k) (hv : v < 2 ^ k) :
    (rowsFwd k M p w).entry r v = (∑ c ∈ Finset.range (2 ^ k), M.entry r c * w ^ (c * v)) % p := by
  rw [Mat.entry, rowsFwd_row p w hM hr, List.getD_eq_getElem?_getD,
    nttIsTheDft k _ p w hp (Mat.row_length hM hr) (.inl ⟨hk, hw⟩) v hv, Option.getD_some]
  rfl

/-- An element of the 2D transform is the 1D DFT of its column of the row-transformed matrix. -/
theorem ntt2Fn_entry_dft {k : Nat} {M : Mat} {p w : Nat} (hp : 1 ≤ p) (hk : 1 ≤ k)
    (hw : w ^ 2 ^ (k - 1) ≡ p - 1 [MOD p]) {u v : Nat} (hu : u < 2 ^ k) (hv : v < 2 ^ k) :
    (ntt2Fn k M p w).entry u v =
      (∑ r ∈ Finset.range (2 ^ k), (rowsFwd k M p w).entry r v * w ^ (r * u)) % p := by
  rw [← Mat.column_getD _ v hu, ntt2Fn_column M p w hv, List.getD_eq_getElem?_getD,
    nttIsTheDft k _ p w hp (Mat.column_length ..) (.inl ⟨hk, hw⟩) u hu, Option.getD_some]
  refine congrArg (· % p) (Finset.sum_congr rfl fun r hr => ?_)
  rw [Mat.column_getD _ v (Finset.mem_range.1 hr)]

/-- Settles O28: the two 1D laws, one after the other; the residues of the first pass are summed again mod p. -/
theorem ntt2IsTheDft : Obligations.Ntt2IsTheDft := by
  intro k M p w hp hM hk hw u hu v hv
  have hrow : ∀ r ∈ Finset.range (2 ^ k), (rowsFwd k M p w).entry r v * w ^ (r * u) % p =
      (∑ c ∈ Finset.range (2 ^ k), M.entry r c * w ^ (r * u + c * v)) % p := fun r hr => by
    rw [rowsFwd_entry_dft hp hM hk hw (Finset.mem_range.1 hr) hv, Nat.mod_mul_mod, Finset.sum_mul]
    refine congrArg (· % p) (Finset.sum_congr rfl fun c _ => ?_)
    rw [mul_assoc, ← pow_add, Nat.add_comm]
  calc (ntt2Fn k M p w).entry u v
      = (∑ r ∈ Finset.range (2 ^ k), (rowsFwd k M p w).entry r v * w ^ (r * u)) % p :=
        ntt2Fn_entry_dft hp hk hw hu hv
    _ = (∑ r ∈ Finset.range (2 ^ k), (∑ c ∈ Finset.range (2 ^ k), M.entry r c * w ^ (r * u + c * v)) % p) % p := by
        rw [Finset.sum_nat_mod, Finset.sum_congr rfl hrow]
    _ = (∑ r ∈ Finset.range (2 ^ k), ∑ c ∈ Finset.range (2 ^ k), M.entry r c * w ^ (r * u + c * v)) % p :=
        (Finset.sum_nat_mod ..).symm

/-- The inverses of the rows undo the transforms of the rows, one by one (41_ntt_1d R127). -/
theorem rowsInv_rowsFwd {k : Nat} {M : Mat} {p w wInv : Nat} (hroot : PrimitiveRoot p (2 ^ k) w)
    (hinv : w * wInv % p = 1) (hM : M.Square (2 ^ k)) (hlt : ∀ row ∈ M, ∀ x ∈ row, x < p) :
    rowsInv k (rowsFwd k M p w) p wInv = M := by
  rw [rowsInv, rowsFwd, List.map_map]
  calc M.map _ = M.map id := List.map_congr_left fun row hrow =>
        inttUndoesNtt k row p w wInv hroot hinv (hM.2 row hrow) (hlt row hrow)
    _ = M := List.map_id M

/-- Settles O29: the transposes cancel, so the inverse undoes the column pass and then the row pass. -/
theorem intt2UndoesNtt2 : Obligations.Intt2UndoesNtt2 := by
  intro k M p w wInv hroot hinv hM hlt
  have hrows := rowsFwd_square p w hM
  have hcols := Mat.square_transpose (2 ^ k) (rowsFwd k M p w)
  have hcols_lt := Mat.transpose_lt hrows (rowsFwd_lt hroot.1.pos le_rfl hlt)
  rw [intt2Fn, ntt2Fn, Mat.transpose_transpose (rowsFwd_square _ _ hcols), rowsInv_rowsFwd hroot hinv hcols hcols_lt,
    Mat.transpose_transpose hrows, rowsInv_rowsFwd hroot hinv hM hlt]

end Sys2Proof.Machine

namespace Sys2Proof.Machine

/-! ### The command CONVS -/

/-- The words of SRCB spell the matrix that the obligations name (20_memory R59). -/
theorem State.ofRowMajor_sourceB (s : State) {f : VectorForm} (hf : f.square = true) (hreads : f.readsB = true)
    (k : Nat) : Mat.ofRowMajor (2 ^ k) (s.sourceB f k) = s.matrixAt (s.draws + 1) s.srcb.toNat (2 ^ k) := by
  rw [State.sourceB, if_pos hreads, VectorForm.words, if_pos hf, Mat.ofRowMajor_memRead]

/-- Settles O30: the matrix is `convsFn` of the two source matrices, of residues of MOD (`convsFn_lt`). -/
theorem convsConvolves : Obligations.ConvsConvolves := by
  refine ⟨hasOpcode_of_decodeOpc fun _ => rfl, fun k s =>
    ⟨checksInOrder_of_runVector (f := convsForm) rfl, fun hready => ?_⟩⟩
  have hlt : ∀ row ∈ convsFn (2 ^ k) (Mat.ofRowMajor (2 ^ k) (s.sourceA convsForm k))
      (Mat.ofRowMajor (2 ^ k) (s.sourceB convsForm k)) s.mod.toNat, ∀ x ∈ row, x < 2 ^ 32 := fun row hrow x hx =>
    (convsFn_lt (Nat.pos_of_ne_zero hready.1) row hrow x hx).trans s.mod.isLt
  obtain ⟨t, ht, hwrites⟩ := exec_writesMatrix (i := .convs k) (f := convsForm) rfl hready (convsFn_square ..) hlt
  rw [← s.ofRowMajor_sourceA (f := convsForm) rfl, ← s.ofRowMajor_sourceB (f := convsForm) rfl rfl]
  exact ⟨t, _, ht, rfl, hwrites⟩

/-! ### The oracle as an exact sum -/

/-- A running sum that is reduced in any way at every step is congruent to the exact sum (43 R162). -/
theorem foldl_range_modEq_sum {p : Nat} {step : Nat → Nat → Nat} {g : Nat → Nat}
    (hstep : ∀ acc k, step acc k ≡ acc + g k [MOD p]) (n acc : Nat) :
    (List.range n).foldl step acc ≡ acc + ∑ k ∈ Finset.range n, g k [MOD p] := by
  induction n with
  | zero => exact Nat.ModEq.refl acc
  | succ n ih =>
    rw [List.range_succ, List.foldl_append, Finset.sum_range_succ, ← Nat.add_assoc]
    exact (hstep _ n).trans (ih.add_right (g n))

/-- The cell is congruent to the exact double sum: the inner loop is one step of the outer one. -/
theorem convsCell_modEq_sum (n : Nat) (A Bf : Mat) (p i j : Nat) : convsCell n A Bf p i j ≡
    ∑ k ∈ Finset.range n, ∑ l ∈ Finset.range n, A.entry (modSub i k n) (modSub j l n) * Bf.entry k l [MOD p] := by
  have inner (acc k : Nat) := foldl_range_modEq_sum (p := p)
    (g := fun l => A.entry (modSub i k n) (modSub j l n) * Bf.entry k l) (fun _ _ => Nat.mod_modEq _ p) n acc
  simpa only [convsCell, Nat.zero_add] using foldl_range_modEq_sum inner n 0

/-- A cell is reduced already: every addition reduces (43 R160), and `mod 0` leaves a number alone. -/
theorem convsCell_mod_self (n : Nat) (A Bf : Mat) (p i j : Nat) :
    convsCell n A Bf p i j % p = convsCell n A Bf p i j := by
  rcases Nat.eq_zero_or_pos p with rfl | hp
  · exact Nat.mod_zero _
  · exact Nat.mod_eq_of_lt (convsCell_lt n A Bf hp i j)

/-- CONVS_FN(A, B, p) = CCONV(A, FLIP(B)) (43_convolution_oracle R163). -/
theorem convsFn_eq_cconv_flip (n : Nat) (A B : Mat) (p : Nat) : convsFn n A B p = cconv n A (Mat.flip n B) p :=
  Mat.entry_congr_build fun i _ j _ =>
    (convsCell_mod_self n A (Mat.flip n B) p i j).symm.trans (convsCell_modEq_sum n A (Mat.flip n B) p i j)

theorem Mat.entry_flip {n : Nat} (M : Mat) {k l : Nat} (hk : k < n) (hl : l < n) :
    (Mat.flip n M).entry k l = M.entry (n - 1 - k) (n - 1 - l) := Mat.entry_build n _ hk hl

/-- Settles O31: the cell of `cconv` (`convsFn_eq_cconv_flip`), with the elements of the flipped matrix written out. -/
theorem convsIsTheExactSum : Obligations.ConvsIsTheExactSum := by
  intro n A B p i j hi hj
  rw [convsFn_eq_cconv_flip, cconv, Mat.entry_build n _ hi hj]
  refine congrArg (· % p) (Finset.sum_congr rfl fun k hk => Finset.sum_congr rfl fun l hl => ?_)
  rw [Mat.entry_flip B (Finset.mem_range.1 hk) (Finset.mem_range.1 hl)]

/-! ### The oracle as an offset cross-correlation -/

/-- Flipping the index k turns the difference i - k into the sum i + 1 + k mod n (43_convolution_oracle R163). -/
theorem modSub_flip (i : Nat) {k n : Nat} (hk : k < n) : modSub i (n - 1 - k) n = (i + 1 + k) % n := by
  have hindex : (i : ℤ) - (n - 1 - k : ℕ) = (i + 1 + k : ℕ) - n := by omega
  rw [modSub, hindex, Int.sub_emod_right, ← Int.natCast_mod, Int.toNat_natCast]

/-- A double sum may be taken in the opposite order of both indices. -/
theorem sum_range_sum_range_flip (n : Nat) (g : Nat → Nat → Nat) :
    ∑ k ∈ Finset.range n, ∑ l ∈ Finset.range n, g (n - 1 - k) (n - 1 - l) =
      ∑ k ∈ Finset.range n, ∑ l ∈ Finset.range n, g k l := by
  rw [← Finset.sum_range_reflect (fun k => ∑ l ∈ Finset.range n, g k l)]
  exact Finset.sum_congr rfl fun k _ => Finset.sum_range_reflect (g (n - 1 - k)) n

/-- Settles O32: the first half is `convsFn_eq_cconv_flip`; in the second the exact sum is taken in the opposite
order, which undoes the flip of B and moves it into the indices of A (`modSub_flip`). -/
theorem convsIsFlippedConvolution : Obligations.ConvsIsFlippedConvolution := by
  intro n A B p _
  refine ⟨convsFn_eq_cconv_flip n A B p, fun i hi j hj => ?_⟩
  rw [convsIsTheExactSum n A B p i j hi hj, ← sum_range_sum_range_flip]
  refine congrArg (· % p) (Finset.sum_congr rfl fun k hk => Finset.sum_congr rfl fun l hl => ?_)
  have hk := Finset.mem_range.1 hk
  have hl := Finset.mem_range.1 hl
  rw [← modSub_flip i hk, ← modSub_flip j hl, Nat.sub_sub_self (Nat.le_sub_one_of_lt hk),
    Nat.sub_sub_self (Nat.le_sub_one_of_lt hl)]
  rfl

end Sys2Proof.Machine

namespace Sys2Proof.Machine

/-! ### The commands PMUL1 and PMUL2 -/

theorem State.sourceB_eq_sequenceAt (s : State) {f : VectorForm} (hf : f.square = false) (hreads : f.readsB = true)
    (k : Nat) : s.sourceB f k = s.sequenceAt (s.draws + 1) s.srcb.toNat (2 ^ k) := by
  simp [State.sourceB, State.memRead, State.sequenceAt, VectorForm.words, hf, hreads]

/-- The pointwise product of two listed sequences is listed by the products of their elements (44 R170). -/
theorem pmulFn_map_range (n : Nat) (f g : Nat → Nat) (p : Nat) :
    pmulFn ((List.range n).map f) ((List.range n).map g) p = (List.range n).map fun i => f i * g i % p := by
  rw [pmulFn, List.zipWith_map, List.zipWith_self]

/-- Settles O33: the values are `pmulFn` of the source words, residues of MOD (`pmulFn_lt`). -/
theorem pmul1MultipliesPointwise : Obligations.Pmul1MultipliesPointwise := by
  refine ⟨hasOpcode_of_decodeOpc fun _ => rfl, fun k s =>
    ⟨checksInOrder_of_runVector (f := pmul1Form) rfl, fun hready => ?_⟩⟩
  have hlt : ∀ x ∈ pmulFn (s.sourceA pmul1Form k) (s.sourceB pmul1Form k) s.mod.toNat, x < 2 ^ 32 := fun x hx =>
    (pmulFn_lt (Nat.pos_of_ne_zero hready.1) hx).trans s.mod.isLt
  have hwrites := exec_writesSequence (i := .pmul1 k) (f := pmul1Form) rfl hready hlt
  rwa [s.sourceA_eq_sequenceAt (f := pmul1Form) rfl, s.sourceB_eq_sequenceAt (f := pmul1Form) rfl rfl,
    State.sequenceAt, State.sequenceAt, pmulFn_map_range] at hwrites

/-- A list of n*n elements that agrees with an n by n matrix at every index r*n + c is its row-major list. -/
theorem Mat.eq_rowMajor {n : Nat} {M : Mat} {l : List Nat} (hM : M.Square n) (hl : l.length = n * n)
    (h : ∀ r < n, ∀ c < n, l[r * n + c]? = some (M.entry r c)) : l = M.rowMajor := by
  refine List.ext_getElem (hl.trans (Mat.rowMajor_length hM).symm) fun i hi hi' => Option.some_injective _ ?_
  have hr : i / n < n := Nat.div_lt_of_lt_mul (hl ▸ hi)
  have hc : i % n < n := Nat.mod_lt i (Nat.zero_lt_of_lt hr)
  rw [← List.getElem?_eq_getElem hi, ← List.getElem?_eq_getElem hi', ← Nat.div_add_mod' i n, h _ hr _ hc,
    Mat.rowMajor_getElem hM hr hc]

/-- The pointwise product of two row-major lists is the row-major list of the matrix of the products
(44_pointwise_and_frequency R172). -/
theorem pmulFn_eq_rowMajor {n : Nat} {a b : List Nat} (p : Nat) (ha : a.length = n * n) (hb : b.length = n * n) :
    pmulFn a b p = (Mat.build n fun r c =>
      (Mat.ofRowMajor n a).entry r c * (Mat.ofRowMajor n b).entry r c % p).rowMajor := by
  refine Mat.eq_rowMajor (Mat.square_build ..) (pmulFn_length p ha hb) fun r hr c hc => ?_
  have hidx : r * n + c < n * n := by nlinarith
  rw [Mat.entry_build _ _ hr hc, Mat.ofRowMajor, Mat.ofRowMajor, Mat.entry_build _ _ hr hc, Mat.entry_build _ _ hr hc]
  simp [pmulFn, ha, hb, hidx]

/-- Settles O34: the values are the row-major list of the matrix of the products (`pmulFn_eq_rowMajor`), which are
residues of MOD. -/
theorem pmul2MultipliesPointwise : Obligations.Pmul2MultipliesPointwise := by
  refine ⟨hasOpcode_of_decodeOpc fun _ => rfl, fun k s =>
    ⟨checksInOrder_of_runVector (f := pmul2Form) rfl, fun hready => ?_⟩⟩
  have hexec : exec (.pmul2 k) s = .next (s.runVector pmul2Form k fun a b => pmulFn a b s.mod.toNat) := rfl
  rw [hexec, State.runVector_ready _ ((State.vectorCheck_eq_none_iff s pmul2Form k).2 hready),
    pmulFn_eq_rowMajor _ (s.sourceA_length pmul2Form k) (State.sourceB_length rfl),
    s.ofRowMajor_sourceA (f := pmul2Form) rfl, s.ofRowMajor_sourceB (f := pmul2Form) rfl rfl]
  refine ⟨_, rfl, writesMatrix_of_lt s (Mat.square_build ..) fun row hrow x hx => ?_⟩
  obtain ⟨r, -, c, -, rfl⟩ := Mat.mem_build hrow hx
  exact (Nat.mod_lt _ (Nat.pos_of_ne_zero hready.1)).trans s.mod.isLt

/-! ### The command CONVF -/

/-- Settles O35: the matrix is `convfFn` of the two source matrices, of residues of MOD (`intt2Fn_lt`). -/
theorem convfConvolves : Obligations.ConvfConvolves := by
  refine ⟨hasOpcode_of_decodeOpc fun _ => rfl, fun k s =>
    ⟨checksInOrder_of_runVector (f := convfForm) rfl, fun hready => ?_⟩⟩
  have hlt : ∀ row ∈ convfFn k (Mat.ofRowMajor (2 ^ k) (s.sourceA convfForm k))
      (Mat.ofRowMajor (2 ^ k) (s.sourceB convfForm k)) s.mod.toNat s.root.toNat s.rootInv.toNat,
      ∀ x ∈ row, x < 2 ^ 32 := fun row hrow x hx =>
    (intt2Fn_lt (Nat.pos_of_ne_zero hready.1) row hrow x hx).trans s.mod.isLt
  obtain ⟨t, ht, hwrites⟩ := exec_writesMatrix (i := .convf k) (f := convfForm) rfl hready (convfFn_square ..) hlt
  rw [← s.ofRowMajor_sourceA (f := convfForm) rfl, ← s.ofRowMajor_sourceB (f := convfForm) rfl rfl]
  exact ⟨t, _, ht, rfl, hwrites⟩

/-- The pointwise product row by row is the matrix of the products of the elements (44 R173). -/
theorem zipWith_pmulFn_eq_build {n : Nat} {M N : Mat} (p : Nat) (hM : M.Square n) (hN : N.Square n) :
    List.zipWith (fun rowM rowN => pmulFn rowM rowN p) M N =
      Mat.build n fun r c => M.entry r c * N.entry r c % p := by
  conv_lhs => rw [← Mat.build_entry hM, ← Mat.build_entry hN]
  rw [Mat.build, Mat.build, List.zipWith_map, List.zipWith_self]
  exact List.map_congr_left fun r _ => pmulFn_map_range n (M.entry r) (N.entry r) p

/-- Settles O36: the rows of the two transforms are multiplied one by one (`zipWith_pmulFn_eq_build`). -/
theorem convfIsTransformProductInverse : Obligations.ConvfIsTransformProductInverse := by
  intro k A B p w wInv _ _
  rw [convfFn, zipWith_pmulFn_eq_build p (ntt2Fn_square ..) (ntt2Fn_square ..)]

/-! ### The convolution theorem over a ring -/

section
variable {R : Type} [CommRing R]

/-- Entry i of the circular convolution of two sequences of length n, one dimension of 00_scope R15. -/
def circularConv (n : Nat) (x y : Nat → R) (i : Nat) : R := ∑ k ∈ Finset.range n, x (modSub i k n) * y k

theorem modSub_add_mod {i k n : Nat} (hi : i < n) : (modSub i k n + k) % n = i := by
  refine (eq_mod_of_zmod_eq hi ?_).symm
  rw [Nat.cast_add, modSub_zmod _ _ _ (by omega), sub_add_cancel]

theorem modSub_mod_add {m k n : Nat} (hm : m < n) : modSub ((m + k) % n) k n = m := by
  have hn : 0 < n := by omega
  rw [← Nat.mod_eq_of_lt (modSub_lt _ _ hn)]
  refine (eq_mod_of_zmod_eq hm ?_).symm
  rw [modSub_zmod _ _ _ hn, ZMod.natCast_mod, Nat.cast_add, add_sub_cancel_right]

/-- The shift law: moving a sequence round by k places multiplies entry j of its transform by w^(k*j). -/
theorem dft_shift {n : Nat} (x : Nat → R) {w : R} (hw : w ^ n = 1) (k j : Nat) :
    dft n (fun i => x (modSub i k n)) w j = w ^ (k * j) * dft n x w j := by
  rw [dft, dft, Finset.mul_sum]
  refine Finset.sum_nbij' (fun i => modSub i k n) (fun m => (m + k) % n) ?_ ?_ ?_ ?_ fun i hi => ?_
  · exact fun i hi => Finset.mem_range.2 (modSub_lt i k (Nat.zero_lt_of_lt (Finset.mem_range.1 hi)))
  · exact fun m hm => Finset.mem_range.2 (Nat.mod_lt _ (Nat.zero_lt_of_lt (Finset.mem_range.1 hm)))
  · exact fun i hi => modSub_add_mod (Finset.mem_range.1 hi)
  · exact fun m hm => modSub_mod_add (Finset.mem_range.1 hm)
  · have hturn : w ^ i = w ^ (modSub i k n + k) := by
      rw [pow_eq_pow_mod (modSub i k n + k) hw, modSub_add_mod (Finset.mem_range.1 hi)]
    rw [pow_mul, hturn, ← pow_mul, add_mul, pow_add]
    ring

theorem dft_sum (n : Nat) (s : Finset Nat) (x : Nat → Nat → R) (w : R) (j : Nat) :
    dft n (fun i => ∑ k ∈ s, x k i) w j = ∑ k ∈ s, dft n (x k) w j := by
  simp only [dft, Finset.sum_mul]
  exact Finset.sum_comm

theorem dft_mul_const (n : Nat) (x : Nat → R) (c w : R) (j : Nat) :
    dft n (fun i => x i * c) w j = dft n x w j * c := by
  rw [dft, dft, Finset.sum_mul]
  exact Finset.sum_congr rfl fun i _ => mul_right_comm ..

/-- The convolution theorem: the transform of a circular convolution is the product of the transforms. -/
theorem dft_circularConv {n : Nat} (x y : Nat → R) {w : R} (hw : w ^ n = 1) (j : Nat) :
    dft n (circularConv n x y) w j = dft n x w j * dft n y w j := by
  calc dft n (circularConv n x y) w j
      = ∑ k ∈ Finset.range n, dft n (fun i => x (modSub i k n) * y k) w j := dft_sum n _ _ w j
    _ = ∑ k ∈ Finset.range n, dft n x w j * (y k * w ^ (k * j)) :=
        Finset.sum_congr rfl fun k _ => by rw [dft_mul_const, dft_shift x hw]; ring
    _ = dft n x w j * dft n y w j := (Finset.mul_sum ..).symm

/-- The transform of the rows and then of the columns: entry (u, v). -/
def dft2 (n : Nat) (x : Nat → Nat → R) (w : R) (u v : Nat) : R := dft n (fun r => dft n (x r) w v) w u

theorem dft2_congr {n : Nat} {x y : Nat → Nat → R} (h : ∀ r < n, ∀ c < n, x r c = y r c) (w : R) (u v : Nat) :
    dft2 n x w u v = dft2 n y w u v :=
  dft_congr (fun r hr => dft_congr (h r hr) w v) w u

/-- Entry (i, j) of the circular convolution of two n by n matrices (00_scope R15): the rows are convolved, and the
results are summed as in one dimension. -/
def circularConv2 (n : Nat) (x y : Nat → Nat → R) (i j : Nat) : R :=
  ∑ k ∈ Finset.range n, circularConv n (x (modSub i k n)) (y k) j

/-- The convolution theorem in two dimensions: the row transforms turn `circularConv2` into a convolution of columns,
and the column transform turns that into a product. -/
theorem dft2_circularConv2 {n : Nat} (x y : Nat → Nat → R) {w : R} (hw : w ^ n = 1) (u v : Nat) :
    dft2 n (circularConv2 n x y) w u v = dft2 n x w u v * dft2 n y w u v := by
  have hrow (i : Nat) : dft n (circularConv2 n x y i) w v =
      circularConv n (fun r => dft n (x r) w v) (fun r => dft n (y r) w v) i :=
    (dft_sum n _ _ w v).trans (Finset.sum_congr rfl fun k _ => dft_circularConv _ _ hw v)
  rw [dft2, dft_congr fun i _ => hrow i]
  exact dft_circularConv _ _ hw u

end

/-! ### The convolution law of CONVF -/

/-- The elements of a matrix as residue classes. -/
def Mat.classes (p : Nat) (M : Mat) (r c : Nat) : ZMod p := M.entry r c

/-- The 2D DFT law in residue classes: no condition at n = 1, half a turn of the root is -1 otherwise. -/
theorem ntt2Fn_classes_eq_dft2 {k : Nat} {M : Mat} {p w : Nat} (hp : 0 < p) (hM : M.Square (2 ^ k))
    (hw : ∀ m, k = m + 1 → (w : ZMod p) ^ 2 ^ m = -1) {u v : Nat} (hu : u < 2 ^ k) (hv : v < 2 ^ k) :
    (ntt2Fn k M p w).classes p u v = dft2 (2 ^ k) (M.classes p) w u v := by
  rw [Mat.classes, ← Mat.column_getD _ v hu, ntt2Fn_column M p w hv,
    nttRec_zmod_eq_dft hp w (Mat.column_length ..) hw hu]
  refine dft_congr (fun r hr => ?_) _ _
  rw [Mat.column_getD _ v hr, Mat.entry, rowsFwd_row p w hM hr, nttRec_zmod_eq_dft hp w (Mat.row_length hM hr) hw hv]
  rfl

theorem cconv_classes {n : Nat} (A B : Mat) (p : Nat) {i j : Nat} (hi : i < n) (hj : j < n) :
    (cconv n A B p).classes p i j = circularConv2 n (A.classes p) (B.classes p) i j := by
  rw [Mat.classes, cconv, Mat.entry_build n _ hi hj, ZMod.natCast_mod]
  push_cast
  rfl

theorem cconv_lt {n : Nat} (A B : Mat) {p : Nat} (hp : 0 < p) : ∀ row ∈ cconv n A B p, ∀ x ∈ row, x < p := by
  intro row hrow x hx
  obtain ⟨i, -, j, -, rfl⟩ := Mat.mem_build hrow hx
  exact Nat.mod_lt _ hp

theorem cconv_square (n : Nat) (A B : Mat) (p : Nat) : (cconv n A B p).Square n := Mat.square_build ..

/-- The pointwise product of the transforms is the transform of the circular convolution. -/
theorem build_mul_ntt2Fn {k : Nat} {A B : Mat} {p w : Nat} (h : PrimitiveRoot p (2 ^ k) w) (hA : A.Square (2 ^ k))
    (hB : B.Square (2 ^ k)) :
    Mat.build (2 ^ k) (fun u v => (ntt2Fn k A p w).entry u v * (ntt2Fn k B p w).entry u v % p) =
      ntt2Fn k (cconv (2 ^ k) A B p) p w := by
  obtain ⟨hp, horder⟩ := h
  have := Fact.mk hp
  have hw : IsPrimitiveRoot (w : ZMod p) (2 ^ k) := IsPrimitiveRoot.iff_orderOf.2 horder
  have hhalf : ∀ m, k = m + 1 → (w : ZMod p) ^ 2 ^ m = -1 := fun m hm => pow_half_eq_neg_one (hm ▸ hw)
  have hC := cconv_square (2 ^ k) A B p
  refine Mat.ext_of_entry (Mat.square_build ..) (ntt2Fn_square ..) fun u hu v hv => ?_
  rw [Mat.entry_build _ _ hu hv]
  refine (eq_mod_of_zmod_eq
    (Mat.entry_lt (ntt2Fn_square ..) (ntt2Fn_lt hp.pos le_rfl hC (cconv_lt A B hp.pos)) hu hv) ?_).symm
  calc (ntt2Fn k (cconv (2 ^ k) A B p) p w).classes p u v
      = dft2 (2 ^ k) ((cconv (2 ^ k) A B p).classes p) w u v := ntt2Fn_classes_eq_dft2 hp.pos hC hhalf hu hv
    _ = dft2 (2 ^ k) (circularConv2 (2 ^ k) (A.classes p) (B.classes p)) w u v :=
        dft2_congr (fun i hi j hj => cconv_classes A B p hi hj) _ u v
    _ = dft2 (2 ^ k) (A.classes p) w u v * dft2 (2 ^ k) (B.classes p) w u v :=
        dft2_circularConv2 _ _ hw.pow_eq_one u v
    _ = (ntt2Fn k A p w).classes p u v * (ntt2Fn k B p w).classes p u v := by
        rw [ntt2Fn_classes_eq_dft2 hp.pos hA hhalf hu hv, ntt2Fn_classes_eq_dft2 hp.pos hB hhalf hu hv]
    _ = ((ntt2Fn k A p w).entry u v * (ntt2Fn k B p w).entry u v : ℕ) := (Nat.cast_mul ..).symm

/-- With a root of order n, the inverse transform of `build_mul_ntt2Fn` is the round trip of CCONV(A, B). -/
theorem convfFn_eq_cconv {k : Nat} {A B : Mat} {p w wInv : Nat} (h : PrimitiveRoot p (2 ^ k) w)
    (hinv : w * wInv % p = 1) (hA : A.Square (2 ^ k)) (hB : B.Square (2 ^ k)) :
    convfFn k A B p w wInv = cconv (2 ^ k) A B p := by
  rw [convfIsTransformProductInverse k A B p w wInv hA hB, build_mul_ntt2Fn h hA hB]
  exact intt2UndoesNtt2 k _ p w wInv h hinv (cconv_square ..) (cconv_lt A B h.1.pos)

/-- At n = 1 no transform uses its root. -/
theorem convfFn_zero_root (A B : Mat) (p w wInv : Nat) : convfFn 0 A B p w wInv = convfFn 0 A B p 1 1 := rfl

/-- Settles O37: `convfFn_eq_cconv`; at n = 1 the root may be taken to be 1, which has order 1. -/
theorem convfIsCircularConvolution : Obligations.ConvfIsCircularConvolution := by
  intro k A B p w wInv hp hinv hroot hA hB
  rcases hroot with rfl | ⟨-, horder⟩
  · have hone : PrimitiveRoot p (2 ^ 0) 1 := ⟨hp, by rw [Nat.cast_one, orderOf_one, pow_zero]⟩
    rw [convfFn_zero_root]
    exact convfFn_eq_cconv hone (Nat.mod_eq_of_lt hp.one_lt) hA hB
  · exact convfFn_eq_cconv ⟨hp, horder⟩ hinv hA hB

theorem Mat.square_flip (n : Nat) (M : Mat) : (Mat.flip n M).Square n := Mat.square_build ..

theorem Mat.flip_flip {n : Nat} {M : Mat} (h : M.Square n) : Mat.flip n (Mat.flip n M) = M := by
  refine Mat.ext_of_entry (Mat.square_flip ..) h fun r hr c hc => ?_
  rw [Mat.entry_flip _ hr hc, Mat.entry_flip M (by omega) (by omega), Nat.sub_sub_self (Nat.le_sub_one_of_lt hr),
    Nat.sub_sub_self (Nat.le_sub_one_of_lt hc)]

/-- Settles O38: CONVF_FN is CCONV (O37), and CONVS_FN is CCONV with its second input flipped
(`convsFn_eq_cconv_flip`); two flips cancel. -/
theorem convfMatchesConvsFlipped : Obligations.ConvfMatchesConvsFlipped := by
  intro k A B p w wInv hp hinv hroot hA hB
  constructor
  · rw [convfIsCircularConvolution k A B p w wInv hp hinv hroot hA hB, convsFn_eq_cconv_flip, Mat.flip_flip hB]
  · rw [convfIsCircularConvolution k A _ p w wInv hp hinv hroot hA (Mat.square_flip ..), convsFn_eq_cconv_flip]

end Sys2Proof.Machine

namespace Sys2Proof.Machine

/-! ### Steps one after the other -/

/-- A run takes its first step and goes on from there. -/
theorem run_of_step {s t : State} (h : step s = .next t) (n : Nat) :
    Host.Core.run Sys2Proof.core (n + 1) s = Host.Core.run Sys2Proof.core n t := by
  have hcore : Host.Core.step Sys2Proof.core s = .next t := h
  simp only [Host.Core.run, hcore]

theorem run_one_of_step {s t : State} (h : step s = .next t) : Host.Core.run Sys2Proof.core 1 s = .next t :=
  run_of_step h 0

/-- `RD <reg>` out of reset (30_encoding R80): the response is the register's value. -/
theorem step_hostRd {s : State} {r : Reg} {rest : List Input} (hr : s.rstN = true)
    (h : s.inputs = hostRd r :: rest) :
    step s = .next ((s.setInputs rest).respond (.data (s.readReg r))) := by
  have hread : (s.setInputs rest).readReg r = s.readReg r := by cases r <;> rfl
  rw [step_host (a := busRead r.offset) h, hostAccess_busRead_reg (s := s.setInputs rest) r hr, hread]

/-! ### WAIT -/

/-- BUSY is bit 0 of STATUS, and DONE bit 1 (10_state R26). -/
theorem Status.toWord_busy (st : Status) : st.toWord.getLsbD 0 = st.busy := by
  simp only [Status.toWord, BitVec.getLsbD_append, BitVec.getLsbD_ofBool]
  rfl

theorem Status.toWord_done (st : Status) : st.toWord.getLsbD 1 = st.done := by
  simp only [Status.toWord, BitVec.getLsbD_append, BitVec.getLsbD_ofBool]
  rfl

theorem rstN_of_execOutcome {i : Instr} {s t : State} (h : ExecOutcome i s t) : t.rstN = s.rstN := by
  rcases h with ⟨c, rfl⟩ | ⟨-, rfl⟩ | ⟨-, v, -, rfl⟩ | ⟨f, vals, -, -, -, rfl⟩ <;> rfl

/-- A completion does not move the reset pin (70_reset_and_hazards R233). -/
theorem State.completeCommand_rstN {s t : State} (h : s.completeCommand = .next t) : t.rstN = s.rstN := by
  obtain ⟨t', ht', hcases⟩ := s.completeCommand_cases
  cases h.symm.trans ht'
  rcases hcases with ⟨_, -, rfl⟩ | ⟨i, -, ho⟩
  · rfl
  · exact rstN_of_execOutcome ho

theorem hostWait_succ (polls : Nat) : hostWait (polls + 1) = hostRd .status :: hostWait polls := by
  rw [hostWait, List.replicate_succ, List.cons_append, hostWait]

/-- The end of WAIT: the unit's turn completes the command in flight, and the read after it finds that. -/
theorem run_hostWait_zero {s : State} {rest : List Input} (hr : s.rstN = true) (hbusy : s.status.busy = true)
    (h : s.inputs = hostWait 0 ++ rest) :
    ∃ t, Host.Core.run Sys2Proof.core 2 s = .next t ∧ t.response = some (.data t.status.toWord) ∧
      t.status.busy = false ∧ t.status.done = true ∧ t.inputs = rest := by
  obtain ⟨u, hu, hc⟩ := (s.setInputs (hostRd .status :: rest)).completeCommand_completed
  have hturn : step s = .next u := by
    rw [step_unitTurn h, State.unitTurn_inFlight, ← hu]
    · rfl
    · exact hbusy
    · exact hr
  have hread : step u = .next ((u.setInputs rest).respond (.data u.status.toWord)) :=
    step_hostRd ((State.completeCommand_rstN hu).trans hr) hc.inputs
  exact ⟨_, (run_of_step hturn 1).trans (run_one_of_step hread), rfl, hc.busy, hc.done, rfl⟩

/-- The whole of WAIT, by induction on the polls: one that finds BUSY = 1 changes the response alone. -/
theorem run_hostWait (polls : Nat) {s : State} {rest : List Input} (hr : s.rstN = true)
    (hbusy : s.status.busy = true) (h : s.inputs = hostWait polls ++ rest) :
    ∃ t, Host.Core.run Sys2Proof.core (polls + 2) s = .next t ∧ t.response = some (.data t.status.toWord) ∧
      t.status.busy = false ∧ t.status.done = true ∧ t.inputs = rest := by
  induction polls generalizing s with
  | zero => exact run_hostWait_zero hr hbusy h
  | succ polls ih =>
    have hpoll := step_hostRd hr (h.trans (congrArg (· ++ rest) (hostWait_succ polls)))
    rw [Nat.add_right_comm, run_of_step hpoll]
    exact ih hr hbusy rfl

/-- Settles O54: the word of the last read is STATUS after the completion (`run_hostWait`). -/
theorem waitEnds : Obligations.WaitEnds := by
  intro s polls rest hr hbusy h
  obtain ⟨t, hrun, hresponse, hidle, hdone, hinputs⟩ := run_hostWait polls hr hbusy h
  exact ⟨t, _, hrun, hresponse, (Status.toWord_busy _).trans hidle, (Status.toWord_done _).trans hdone, hidle,
    hinputs⟩

/-! ### The command NOP -/

/-- Settles O10: a row of the opcode map, and the arm of NOP, which completes without a check. -/
theorem nopOnlyCompletes : Obligations.NopOnlyCompletes :=
  ⟨hasOpcode_of_decodeOpc fun _ => rfl, fun _ _ => rfl⟩

end Sys2Proof.Machine

namespace Sys2Proof.Machine

/-! ### Errors and completion -/

/-- Settles O7: in each of its cases a step answers a next state (`step_cases`). -/
theorem everyStepAnswersNext : Obligations.EveryStepAnswersNext := by
  intro s
  obtain ⟨_, t, -, ht, -⟩ := step_cases s
  exact ⟨t, ht⟩

/-- Taking an error writes STATUS alone, with the ECODE of the error (60_exceptions R208, R209). -/
theorem State.completeError_eq (s : State) (c : CmdError) :
    s.completeError c = { s with status := s.statusFailed c.code.toNat } := by
  rw [State.statusFailed, BitVec.ofNat_toNat, BitVec.setWidth_eq]
  rfl

/-- The completion step of a word the decoder refuses (60_exceptions R201). -/
theorem State.completeCommand_of_decode_error {s : State} {e : DecodeError} (h : decode s.cmd = .error e) :
    s.completeCommand = .next (s.completeError .illegalOp) := by
  simp only [State.completeCommand, h]

/-- Settles O8: the words listed are among those the decoder refuses (`decoderFollowsOpcodeMap`), and a refused
word takes ILLEGAL_OP. -/
theorem illegalWordsCompleteWithIllegalOp : Obligations.IllegalWordsCompleteWithIllegalOp := by
  intro s hillegal
  simp only [List.mem_cons, List.not_mem_nil, or_false, or_assoc] at hillegal
  obtain ⟨e, he⟩ := (decoderFollowsOpcodeMap s.cmd).1.2 hillegal
  rw [State.completeCommand_of_decode_error he, State.completeError_eq]
  rfl

/-- What a completion reports, of a legal word or not: success, or an error that changes STATUS alone. -/
theorem State.completeCommand_reports {s t : State} (h : s.completeCommand = .next t) :
    t.status = s.statusOk ∨ ∃ c : CmdError, t = { s with status := s.statusFailed c.code.toNat } := by
  obtain ⟨t', ht', hcases⟩ := s.completeCommand_cases
  cases h.symm.trans ht'
  rcases hcases with ⟨_, -, rfl⟩ | ⟨i, -, houtcome⟩
  · exact .inr ⟨.illegalOp, s.completeError_eq _⟩
  · rcases houtcome with ⟨c, rfl⟩ | ⟨-, rfl⟩ | ⟨-, v, -, rfl⟩ | ⟨f, vals, -, -, -, rfl⟩
    · exact .inr ⟨c, s.completeError_eq c⟩
    · exact .inl rfl
    · exact .inl rfl
    · exact .inl rfl

/-- Settles O40: a completion that leaves ERR = 1 has not reported success (`State.completeCommand_reports`). -/
theorem errorsArePrecise : Obligations.ErrorsArePrecise := by
  intro s t ht herr
  rcases State.completeCommand_reports ht with hok | ⟨c, rfl⟩
  · rw [hok] at herr
    exact absurd herr Bool.false_ne_true
  · exact ⟨rfl, rfl, rfl, rfl⟩

/-- The codes in use (60_exceptions R200). -/
theorem CmdError.code_range (c : CmdError) : 1 ≤ c.code.toNat ∧ c.code.toNat ≤ 6 := by
  cases c <;> decide

/-- Settles O41: an error is reported with its own code (`CmdError.code_range`). -/
theorem completionReportsOneOutcome : Obligations.CompletionReportsOneOutcome := by
  intro s t ht
  rcases State.completeCommand_reports ht with hok | ⟨c, rfl⟩
  · exact .inl hok
  · obtain ⟨hlo, hhi⟩ := c.code_range
    exact .inr ⟨_, hlo, hhi, rfl⟩

/-! ### The two smallest moduli -/

/-- Every command but NOP checks MOD before anything else (60_exceptions R202, R207). -/
theorem endsInError_of_mod_zero {i : Instr} {s : State} (hmod : s.mod.toNat = 0) (hnop : ∀ k, i ≠ .nop k) :
    EndsInError i s 2 := by
  have vector {j : Instr} {f : VectorForm} {k : Nat} {value : List Nat → List Nat → List Nat}
      (h : exec j s = .next (s.runVector f k value)) : EndsInError j s 2 :=
    (checksInOrder_of_runVector h).1 hmod
  cases i with
  | nop k => exact absurd rfl (hnop k)
  | madd k | msub k | mmul k | mpow k => exact (exec_scalar_cases rfl).1 hmod
  | minv k => exact (minvInvertsByFermat.2 k s).1 hmod
  | ntt1 k | intt1 k | ntt2 k | intt2 k | pmul1 k | pmul2 k | convs k | convf k => exact vector rfl

section
variable {i : Instr} {s : State} (hmod : s.mod.toNat = 1)
include hmod

/-- The only residue of MOD = 1 is 0. -/
theorem exec_scalar_of_mod_one {v : Nat} (h : exec i s = .next (s.runScalar s.scalarCheck v))
    (hv : 0 < s.mod.toNat → v < s.mod.toNat) :
    exec i s = .next { s with result := 0#32, status := s.statusOk } := by
  have hzero : v = 0 := by omega
  have hpass := (exec_scalar_cases h).2 (by omega)
  rwa [hzero] at hpass

/-- Every length is 0 mod 1, so a command that scales by its inverse reaches NO_INVERSE once the checks before
that one pass (60_exceptions R206, R207). -/
theorem endsInError_of_mod_one {readsB : Bool} {k m : Nat} (h : ChecksInOrder i s readsB true k m)
    (hk : k ≤ s.params.logNMax) (hfit : s.RegionsFit readsB m) (hapart : s.RegionsApart readsB m) :
    EndsInError i s 6 := by
  obtain ⟨-, -, -, -, hinverse⟩ := h
  exact hinverse (by omega) hk hfit hapart rfl (by rw [hmod, Nat.mod_one])

end

/-- Settles O39: MOD = 0 by `endsInError_of_mod_zero`; with MOD = 1 the scalar results are residues of 1, and the
commands that need an inverse, of OPA or of their length, find 0. -/
theorem modulusZeroIsRefusedAndOneIsAccepted : Obligations.ModulusZeroIsRefusedAndOneIsAccepted := by
  refine ⟨fun i s hmod hnop => endsInError_of_mod_zero (congrArg BitVec.toNat hmod) hnop, fun k s hmod => ?_⟩
  replace hmod : s.mod.toNat = 1 := congrArg BitVec.toNat hmod
  refine ⟨fun i hi => ?_, ?_, fun hk => ⟨?_, ?_, ?_⟩⟩
  · simp only [List.mem_cons, List.not_mem_nil, or_false] at hi
    rcases hi with rfl | rfl | rfl | rfl
    · exact exec_scalar_of_mod_one hmod rfl (modAdd_lt _ _)
    · exact exec_scalar_of_mod_one hmod rfl (modSub_lt _ _)
    · exact exec_scalar_of_mod_one hmod rfl (modMul_lt _ _)
    · exact exec_scalar_of_mod_one hmod rfl (modPow_lt _ _)
  · obtain ⟨-, hinverse, -⟩ := minvInvertsByFermat.2 k s
    exact hinverse (by omega) (by rw [hmod, Nat.mod_one])
  · exact endsInError_of_mod_one hmod (intt1Inverts.2 k s).1 hk
  · exact endsInError_of_mod_one hmod (intt2Inverts.2 k s).1 hk
  · exact endsInError_of_mod_one hmod (convfConvolves.2 k s).1 hk

end Sys2Proof.Machine

namespace Sys2Proof.Machine

/-! ### A sample of the reset pin -/

/-- A block whose pin is sampled at 0 is in the reset state (70_reset_and_hazards R230, R233), with the parameters,
the latest response, the count of draws and the inputs to come of before. -/
theorem State.sampleReset_false (s : State) : s.sampleReset false = { State.resetWith s.params with
    rstN := false, response := s.response, draws := s.draws, inputs := s.inputs } := rfl

theorem State.sampleReset_true (s : State) : s.sampleReset true = { s with rstN := true } := rfl

@[simp] theorem State.sampleReset_false_irq (s : State) : (s.sampleReset false).irq = false := rfl

@[simp] theorem State.sampleReset_false_dmem (s : State) : (s.sampleReset false).dmem = [] := rfl

/-- Settles O55: either step is its sample, by `step_resetPin`; a sample of 0 is the reset state, which has no word
of DMEM, and a sample of 1 moves the level alone. -/
theorem resetPinResetsTheBlock : Obligations.ResetPinResetsTheBlock := by
  intro s rest
  refine ⟨fun h => ?_, fun h => ?_⟩
  · refine ⟨(s.setInputs rest).sampleReset false, step_resetPin h, State.sampleReset_false_irq _, fun e => ?_, ?_⟩
    · rw [State.sampleReset_false_dmem, Memory.lookup_nil]
    · exact State.sampleReset_false (s.setInputs rest)
  · rw [step_resetPin h, State.sampleReset_true]
    rfl

end Sys2Proof.Machine
